-- ==== Sys2Proof/Word.lean ====
section
/-! DEFINITION. The words of the block: 64-bit addresses and results (spec R7), bytes, and the 32-bit word a fetch hands to
the kernel (R94). -/

namespace Sys2Proof

/-- A 64-bit unsigned value: every address, the program counter, every result; its sums wrap modulo 2^64 (R7, R13). -/
abbrev Word := BitVec 64

/-- One byte of memory or of an image. -/
abbrev Byte := BitVec 8

end Sys2Proof
end

