-- ==== Sys2Proof/Config.lean ====
section
/-! DEFINITION. What an instance of the block fixes at construction (spec R8, R9, R39) and the free values: the kernel
(R11, R210), the report text (R226) and the host clock (R227). A free value is an opaque constant with no body, so no proof
can see what it is. -/

namespace Sys2Proof

/-- The construction arguments that are numbers (R8, R9, R39). They are plain data held in the state, so that a statement
about every state is a statement about every instance of the block. `offsetBitsLess1` is OFFSET_BITS - 1: its 63 values
are exactly the legal OFFSET_BITS 1 to 63. -/
structure Config where
  offsetBitsLess1 : Fin 63
  capacity : Nat
deriving DecidableEq, Repr, Inhabited

/-- OFFSET_BITS, from 1 to 63 (R8). -/
def Config.offsetBits (c : Config) : Nat := c.offsetBitsLess1.val + 1

/-- PAGE_SIZE = 2^OFFSET_BITS (R8). -/
def Config.pageSize (c : Config) : Nat := 2 ^ c.offsetBits

/-- PAGE_ID_BITS = 64 - OFFSET_BITS (R8). -/
def Config.pageIdBits (c : Config) : Nat := 64 - c.offsetBits

/-- The number of page ids, 2^PAGE_ID_BITS (R20). -/
def Config.pageCount (c : Config) : Nat := 2 ^ c.pageIdBits

/-- The instance the spec's examples use: OFFSET_BITS = 12, CAPACITY = 0x10_0000 (95_test_vectors). DESIGN CHOICE (log 1):
the spec gives no value; unsafe only for a claim about this one instance. -/
def Config.exampleInstance : Config := { offsetBitsLess1 := 11, capacity := 0x100000 }

/-- The width of a memory access: 1, 2, 4 or 8 bytes (R62). -/
inductive Width where
  | byte
  | two
  | four
  | eight
deriving DecidableEq, Repr

/-- The kernel's own state, opaque to the block (R11, R32). DESIGN CHOICE (log 2): any finite list of words. -/
abbrev KState := List Word

/-- A decoded instruction, opaque to the block (R11). DESIGN CHOICE (log 2): 32 bits, which every function of a 32-bit
word can be coded into; safe. -/
abbrev Insn := BitVec 32

/-- Memory as `Execute` is given it: what each byte holds, nothing where its page is not committed. DESIGN CHOICE (log 18): R11
does not define `Mem`, and the model leaves the pages' free pointers out of it. -/
abbrev MemView := Word → Option Byte

/-- What `Execute` does in one cycle (R210): the memory commands it issues one at a time, each going on from its answer, and
at last `Next(pc', kstate')` or `KernelFault(k)`. Memory changes only through these commands (R11). Every path is finite:
`Execute` is total (R11). It is code the block runs, never part of the state. -/
inductive KernelProg where
  | next (pc : Word) (ks : KState)
  | kernelFault (code : BitVec 8)
  | load (w : Width) (a : Word) (k : Word → KernelProg)
  | store (w : Width) (a : Word) (d : Word) (k : KernelProg)
  | loadSeq (a l : Word) (k : List Byte → KernelProg)
  | storeSeq (a : Word) (b : List Byte) (k : KernelProg)
deriving Inhabited

/-- The decode and execute kernels, parameters of the model (R11, R39). -/
structure Kernel where
  decode : BitVec 32 → Insn
  execute : Insn → Word → KState → MemView → KernelProg
deriving Inhabited

/-- The kernel of this block: a free value, total and otherwise unknown (R11, I15; log 2). -/
opaque Config.kernel : Kernel

/-- The host clock's draws (R227): numerator and denominator less one of the elapsed milliseconds of the run that took the
draw of that index; a free value (log 8). -/
opaque Config.elapsedNumerator : Nat → Nat

/-- See `Config.elapsedNumerator`. -/
opaque Config.elapsedDenominatorLess1 : Nat → Nat

/-- The MIPS figure of a run whose elapsed time is 0: any value, or no number at all (R227, I14); a free value (log 8). -/
opaque Config.mipsAtZeroTime : Nat → Option Rat

/-- REPORT_FORMAT (R226): the three lines of text of a report, from its count, elapsed milliseconds and MIPS; a free value
(log 9). -/
opaque Config.reportFormat : Word → Rat → Option Rat → Vector String 3

end Sys2Proof
end

