-- ==== Sys2Proof/Syntax.lean ====
section
/-! DEFINITION. The commands of the block (spec/opcode_table.json, one constructor per row) and the request that carries one
(30_encoding R82 to R85). -/

namespace Sys2Proof

/-- Operand `I` of LOAD_ELF (R83, R181): the host has not answered the open yet, cannot open the file (`none` of the spec),
or presents the whole file as a finite byte image. -/
inductive HostFile where
  | pending
  | cannotOpen
  | image (bytes : List Byte)
deriving DecidableEq, Repr

/-- One command with its operands, in the order of its format (R84, R85). -/
inductive Instr where
  /-- LOAD_BYTE, op 0x01, format CA (R141). -/
  | loadByte (a : Word)
  /-- LOAD_TWO, op 0x02, format CA (R145). -/
  | loadTwo (a : Word)
  /-- LOAD_FOUR, op 0x03, format CA (R146). -/
  | loadFour (a : Word)
  /-- LOAD_EIGHT, op 0x04, format CA (R147). -/
  | loadEight (a : Word)
  /-- STORE_BYTE, op 0x05, format CAD (R142). -/
  | storeByte (a d : Word)
  /-- STORE_TWO, op 0x06, format CAD (R150). -/
  | storeTwo (a d : Word)
  /-- STORE_FOUR, op 0x07, format CAD (R151). -/
  | storeFour (a d : Word)
  /-- STORE_EIGHT, op 0x08, format CAD (R152). -/
  | storeEight (a d : Word)
  /-- LOAD_SEQ, op 0x09, format CAL (R155). -/
  | loadSeq (a l : Word)
  /-- STORE_SEQ, op 0x0A, format CALB (R154). -/
  | storeSeq (a l : Word) (b : List Byte)
  /-- NEXT_BLOCK, op 0x0B, format CN (R156). -/
  | nextBlock
  /-- LOAD_ELF, op 0x0C, format CI (R180). -/
  | loadElf (i : HostFile)
  /-- BS_GET_ADDRESS, op 0x10, format CPOF (R121). -/
  | bsGetAddress (p o : Word) (f : Bool)
  /-- BS_GET_PAGE, op 0x11, format CP (R123). -/
  | bsGetPage (p : Word)
  /-- BS_FITS, op 0x12, format COS (R124). -/
  | bsFits (o s : Word)
  /-- BS_NEXT_UNOCC, op 0x13, format CN (R126). -/
  | bsNextUnocc
  /-- PG_GET_FP, op 0x18, format CP (R111). -/
  | pgGetFp (p : Word)
  /-- PG_SET_FP, op 0x19, format CPV (R112). -/
  | pgSetFp (p v : Word)
  /-- PG_OCCUPIED, op 0x1A, format CP (R113). -/
  | pgOccupied (p : Word)
  /-- PG_FREE, op 0x1B, format CP (R114). -/
  | pgFree (p : Word)
  /-- RUN_STEP, op 0x20, format CN (R216). -/
  | runStep
  /-- RUN_TO_COMPLETION, op 0x21, format CMX (R217). -/
  | runToCompletion (m : BitVec 2) (x : Bool)
  /-- SET_PC, op 0x22, format CD (R160). -/
  | setPc (d : Word)
  /-- GET_PC, op 0x23, format CN (R161). -/
  | getPc
  /-- GET_COUNT, op 0x24, format CN (R162). -/
  | getCount
deriving DecidableEq, Repr

/-- A request on the command port: the command code and every operand field of R83 (a command uses those its format lists).
A field the host does not drive is all zeros, and no file (log 4). -/
structure Request where
  /-- the command code, `op[7:0]` -/
  op : BitVec 8
  /-- `A`, address -/
  a : Word := 0
  /-- `D`, store data or new pc -/
  d : Word := 0
  /-- `L`, length in bytes -/
  l : Word := 0
  /-- `B`, byte sequence, `B[0]` first -/
  b : List Byte := []
  /-- `P`, page id; the port has its low PAGE_ID_BITS bits only (log 10) -/
  p : Word := 0
  /-- `O`, offset -/
  o : Word := 0
  /-- `S`, size in bytes -/
  s : Word := 0
  /-- `F`, allocate-if-missing -/
  f : Bool := false
  /-- `V`, new free-pointer value -/
  v : Word := 0
  /-- `M`, run mode code -/
  m : BitVec 2 := 0
  /-- `X`, measure flag -/
  x : Bool := false
  /-- `I`, the ELF file -/
  i : HostFile := .cannotOpen
deriving DecidableEq, Repr

end Sys2Proof
end

