-- ==== Sys2Proof/WellFormed.lean ====
section
/-! DEFINITION. Which commands the port can express (spec 30_encoding R83, R93): a page id has PAGE_ID_BITS bits, and a byte
sequence `B` has exactly `L` bytes. Values the rules refuse (a free pointer above PAGE_SIZE, an offset past the page, run
mode 3) are well formed: the block answers them. -/

namespace Sys2Proof

/-- `P` fits its field of `64 - OFFSET_BITS` bits (R83, R93). -/
def pageIdFits (c : Config) (p : Word) : Bool := decide (p.toNat < c.pageCount)

/-- The command can be expressed on the port of the instance `c` (R83, R93). -/
def Instr.wf (c : Config) (i : Instr) : Bool :=
  match i with
  | .loadByte _ => true
  | .loadTwo _ => true
  | .loadFour _ => true
  | .loadEight _ => true
  | .storeByte _ _ => true
  | .storeTwo _ _ => true
  | .storeFour _ _ => true
  | .storeEight _ _ => true
  | .loadSeq _ _ => true
  | .storeSeq _ l b => decide (b.length = l.toNat)
  | .nextBlock => true
  | .loadElf _ => true
  | .bsGetAddress p _ _ => pageIdFits c p
  | .bsGetPage p => pageIdFits c p
  | .bsFits _ _ => true
  | .bsNextUnocc => true
  | .pgGetFp p => pageIdFits c p
  | .pgSetFp p _ => pageIdFits c p
  | .pgOccupied p => pageIdFits c p
  | .pgFree p => pageIdFits c p
  | .runStep => true
  | .runToCompletion _ _ => true
  | .setPc _ => true
  | .getPc => true
  | .getCount => true

end Sys2Proof
end

