-- ==== Sys2Proof/Decode.lean ====
section
/-! DEFINITION. From a request on the command port to a command (spec 30_encoding R82 to R85, R92), total and rejecting by
name; then the encoder, and the opcode table's numbering of a request's bits. -/

namespace Sys2Proof

/-- Why a request is no command. -/
inductive DecodeError where
  /-- The code is not one of R85 (R92): the block answers ILLEGAL_COMMAND. -/
  | illegalCommand (op : BitVec 8)
  /-- `B` does not have `L` bytes, which the port cannot express (R83; log 11). -/
  | sequenceLength
deriving DecidableEq, Repr

/-- Operand `B` of STORE_SEQ is `8 * L` bits wide (R83). -/
def decodeStoreSeq (r : Request) : Except DecodeError Instr :=
  if r.b.length = r.l.toNat then .ok (.storeSeq r.a r.l r.b) else .error .sequenceLength

/-- The command a request names (R84, R85); a field its format does not list is ignored (R83). -/
def decode (r : Request) : Except DecodeError Instr :=
  match r.op.toNat with
  | 0x01 => .ok (.loadByte r.a)
  | 0x02 => .ok (.loadTwo r.a)
  | 0x03 => .ok (.loadFour r.a)
  | 0x04 => .ok (.loadEight r.a)
  | 0x05 => .ok (.storeByte r.a r.d)
  | 0x06 => .ok (.storeTwo r.a r.d)
  | 0x07 => .ok (.storeFour r.a r.d)
  | 0x08 => .ok (.storeEight r.a r.d)
  | 0x09 => .ok (.loadSeq r.a r.l)
  | 0x0A => decodeStoreSeq r
  | 0x0B => .ok .nextBlock
  | 0x0C => .ok (.loadElf r.i)
  | 0x10 => .ok (.bsGetAddress r.p r.o r.f)
  | 0x11 => .ok (.bsGetPage r.p)
  | 0x12 => .ok (.bsFits r.o r.s)
  | 0x13 => .ok .bsNextUnocc
  | 0x18 => .ok (.pgGetFp r.p)
  | 0x19 => .ok (.pgSetFp r.p r.v)
  | 0x1A => .ok (.pgOccupied r.p)
  | 0x1B => .ok (.pgFree r.p)
  | 0x20 => .ok .runStep
  | 0x21 => .ok (.runToCompletion r.m r.x)
  | 0x22 => .ok (.setPc r.d)
  | 0x23 => .ok .getPc
  | 0x24 => .ok .getCount
  | _ => .error (.illegalCommand r.op)

/-- The request that carries a command: its code and the operand fields of its format (R84, R85), the others undriven. -/
def encode (i : Instr) : Request :=
  match i with
  | .loadByte a => { op := 0x01, a := a }
  | .loadTwo a => { op := 0x02, a := a }
  | .loadFour a => { op := 0x03, a := a }
  | .loadEight a => { op := 0x04, a := a }
  | .storeByte a d => { op := 0x05, a := a, d := d }
  | .storeTwo a d => { op := 0x06, a := a, d := d }
  | .storeFour a d => { op := 0x07, a := a, d := d }
  | .storeEight a d => { op := 0x08, a := a, d := d }
  | .loadSeq a l => { op := 0x09, a := a, l := l }
  | .storeSeq a l b => { op := 0x0A, a := a, l := l, b := b }
  | .nextBlock => { op := 0x0B }
  | .loadElf i => { op := 0x0C, i := i }
  | .bsGetAddress p o f => { op := 0x10, p := p, o := o, f := f }
  | .bsGetPage p => { op := 0x11, p := p }
  | .bsFits o s => { op := 0x12, o := o, s := s }
  | .bsNextUnocc => { op := 0x13 }
  | .pgGetFp p => { op := 0x18, p := p }
  | .pgSetFp p v => { op := 0x19, p := p, v := v }
  | .pgOccupied p => { op := 0x1A, p := p }
  | .pgFree p => { op := 0x1B, p := p }
  | .runStep => { op := 0x20 }
  | .runToCompletion m x => { op := 0x21, m := m, x := x }
  | .setPc d => { op := 0x22, d := d }
  | .getPc => { op := 0x23 }
  | .getCount => { op := 0x24 }

/-- The command codes of R85; every other code is illegal (R92). -/
def tableCodes : List (BitVec 8) :=
  [0x01, 0x02, 0x03, 0x04, 0x05, 0x06, 0x07, 0x08, 0x09, 0x0A, 0x0B, 0x0C, 0x10, 0x11, 0x12, 0x13, 0x18, 0x19, 0x1A, 0x1B,
    0x20, 0x21, 0x22, 0x23, 0x24]

/-- The request whose selector bits are the low `nbits` bits of `w`, numbered as the opcode table numbers them (the table gives
a row the 8 bits of `op` and its operands none), with every operand bit 0 (log 14). -/
def requestOfTableWord (nbits w : Nat) : Request := { op := BitVec.ofNat 8 (w % 2 ^ nbits) }

/-- The command the decoder reads from an opcode-table word. -/
def decodeTableWord (nbits w : Nat) : Option Instr :=
  match decode (requestOfTableWord nbits w) with
  | .ok i => some i
  | .error _ => none

end Sys2Proof
end

