-- ==== Sys2Proof/Machine/State.lean ====
section
/-! DEFINITION. The state of the block as plain data (spec 10_state), the response port, and the reasons a step can stop. -/

namespace Sys2Proof.Machine

/-- The intent of a page lookup (R53, R54). -/
inductive Intent where
  | read
  | write
deriving DecidableEq, Repr

/-- The two fatal causes (R240). -/
inductive FatalCause where
  | pageFault
  | capacityExhausted
deriving DecidableEq, Repr

/-- The fault record `(cause, addr, intent)` (R31, R241). -/
structure FatalRecord where
  cause : FatalCause
  addr : Word
  intent : Intent
deriving DecidableEq, Repr

/-- The loader errors (R91, R248). -/
inductive LoaderError where
  | openFailed
  | truncatedHeader
  | badMagic
  | badClass
  | badData
  | badMachine
  | malformedPhdrTable
  | segmentRange
deriving DecidableEq, Repr

/-- The status names of a response (R88). -/
inductive Status where
  | ok
  | stepped
  | halted
  | unimplemented
  | kernelFault
  | fatal
  | illegalCommand
  | loaderError
  | refused
deriving DecidableEq, Repr

/-- A response (R82): status, and, where the command has one, the result `r`, the byte sequence `q`, the error code `e`. -/
structure Response where
  st : Status
  r : Option Word := none
  q : Option (List Byte) := none
  e : Option (BitVec 8) := none
deriving DecidableEq, Repr

/-- The page record of a committed page (R21). `data` is the array of PAGE_SIZE bytes, held as (offset, byte) cells in one
canonical form: offsets strictly rising, no cell equal to `unlistedByte`. -/
structure Page where
  id : Nat
  data : List Host.Cell
  freePointer : Nat
deriving DecidableEq, Repr

/-- The backing store's map of committed pages (R20): one record per page, ids strictly rising. -/
abbrev Memory := List Page

/-- What a byte of a committed page that no cell lists reads as: pages are created zero-filled (R23, R53). -/
def unlistedByte : Byte := 0#8

/-- Offsets strictly rising from `lo` on and below `size`, no byte equal to `unlistedByte`. -/
def cellsWf (size : Nat) : Nat → List Host.Cell → Bool
  | _, [] => true
  | lo, (k, v) :: t => decide (lo ≤ k) && decide (k < size) && decide (v ≠ unlistedByte) && cellsWf size (k + 1) t

/-- A page record is well formed: its id has PAGE_ID_BITS bits (R20), its data is in canonical form (R21), and
`0 <= free_pointer <= PAGE_SIZE` (R22). -/
def Page.wf (c : Config) (pg : Page) : Bool :=
  decide (pg.id < c.pageCount) && cellsWf c.pageSize 0 pg.data && decide (pg.freePointer ≤ c.pageSize)

/-- Page ids strictly rising from `lo` on, every page well formed. -/
def pagesWf (c : Config) : Nat → Memory → Bool
  | _, [] => true
  | lo, pg :: t => decide (lo ≤ pg.id) && pg.wf c && pagesWf c (pg.id + 1) t

/-- The canonical form of memory. -/
def Memory.wf (c : Config) (m : Memory) : Bool := pagesWf c 0 m

/-- The run modes (R28, R89); code 3 is reserved and is no mode. -/
inductive RunMode where
  | simple
  | basicBlockCached
  | disabled
deriving DecidableEq, Repr

/-- One measurement report event (R225): the counter, the elapsed milliseconds, and MIPS (nothing where it is no number). -/
structure Report where
  count : Word
  elapsedMs : Rat
  mips : Option Rat
deriving DecidableEq, Repr

/-- A RUN_TO_COMPLETION that has begun and not ended (R217, R218): with the measure flag set, `measure` is the index of the
clock draw it took (log 5, log 8). -/
structure Run where
  measure : Option Nat
deriving DecidableEq, Repr

/-- Everything the block holds, and the lines of its port. -/
structure State where
  /-- OFFSET_BITS and CAPACITY, fixed at construction (R39). -/
  cfg : Config
  /-- The committed pages (R20). -/
  pages : Memory
  /-- The program counter; 0 is the halt sentinel (R27). -/
  pc : Word
  /-- The run mode (R28). -/
  runMode : RunMode
  /-- The counter of completed cycles (R29). -/
  icount : Word
  /-- The fault record, once there is one (R31). -/
  fatal : Option FatalRecord
  /-- The kernel's state (R32, R38). -/
  kstate : KState
  /-- The model's own: the requests the host will make, oldest first (R82; log 4). -/
  requests : List Request
  /-- The model's own: the last answer on the response port (R82, R33; log 4). -/
  response : Option Response
  /-- The model's own: the report events on the diagnostic stream, oldest first (R225; log 4). -/
  reports : List Report
  /-- The model's own: the run in progress (R217; log 5). -/
  run : Option Run
  /-- The model's own: how many host-clock draws were taken (R227; log 8). -/
  draws : Nat
deriving DecidableEq, Repr

/-- The reasons the block has no step. -/
inductive Fault where
  /-- Raised by LOAD_ELF alone, while the host has not answered the open: the spec gives it no step until then (R181, R282,
  I23). Safe: the step is there once the request carries the host's answer (log 12). -/
  | hostFilePending
deriving DecidableEq, Repr

/-- The reasons the model gives a request no meaning. -/
inductive Refusal where
  /-- Raised by `exec` for an instruction that has no meaning yet; safe. -/
  | notModelled (mnemonic : String)
  /-- Raised by `step` alone, for a STORE_SEQ request whose `B` does not have `8 * L` bits: the port cannot express it (R83).
  Safe: no request of the hardware is refused (log 11). -/
  | malformedRequest
deriving DecidableEq, Repr

/-- Reset is the construction of the block (R270): the construction arguments and the host's kernel state are taken, and every
other element has the value of R37 and R271; nothing is pending on the port. -/
def State.construct (c : Config) (ks : KState) : State where
  cfg := c
  pages := []
  pc := 0
  runMode := .simple
  icount := 0
  fatal := none
  kstate := ks
  requests := []
  response := none
  reports := []
  run := none
  draws := 0

/-- The block right after reset (R37), constructed with the spec's example instance (DESIGN CHOICE, log 1) and the empty
kernel state (DESIGN CHOICE, log 3). -/
def State.reset : State := State.construct Config.exampleInstance []

end Sys2Proof.Machine
end

