-- ==== Sys2Proof/Machine/Flags.lean ====
section
/-! DEFINITION. The block has no flags, condition codes or predicates (spec R33); what a command computes beside its result is
the status of its response. This file holds the codes (R88, R90, R91) and the responses. -/

namespace Sys2Proof.Machine

/-- The status codes `st[7:0]` (R88). -/
def Status.code : Status → BitVec 8
  | .ok => 0x00
  | .stepped => 0x01
  | .halted => 0x02
  | .unimplemented => 0x03
  | .kernelFault => 0x04
  | .fatal => 0x05
  | .illegalCommand => 0x06
  | .loaderError => 0x07
  | .refused => 0x08

/-- The fatal cause codes `e[7:0]` (R90). -/
def FatalCause.code : FatalCause → BitVec 8
  | .pageFault => 0x01
  | .capacityExhausted => 0x02

/-- The loader error codes `e[7:0]` (R91). -/
def LoaderError.code : LoaderError → BitVec 8
  | .openFailed => 0x10
  | .truncatedHeader => 0x11
  | .badMagic => 0x12
  | .badClass => 0x13
  | .badData => 0x14
  | .badMachine => 0x15
  | .malformedPhdrTable => 0x16
  | .segmentRange => 0x17

/-- OK with no result (R88). -/
def okDone : Response := { st := .ok }

/-- OK with a result `r` (R88). -/
def okResult (r : Word) : Response := { st := .ok, r := some r }

/-- OK with a byte sequence `q` (R82, R155). -/
def okSeq (q : List Byte) : Response := { st := .ok, q := some q }

/-- FATAL with the recorded cause (R241, R245). -/
def fatalResponse (f : FatalRecord) : Response := { st := .fatal, e := some f.cause.code }

/-- LOADER_ERROR with its code (R247). -/
def loaderErrorResponse (e : LoaderError) : Response := { st := .loaderError, e := some e.code }

/-- KERNEL_FAULT with the kernel's code (R249). -/
def kernelFaultResponse (k : BitVec 8) : Response := { st := .kernelFault, e := some k }

/-- A response that is a status alone. -/
def statusOnly (st : Status) : Response := { st := st }

end Sys2Proof.Machine
end

