-- ==== Sys2Proof/Machine/Operands.lean ====
section
/-! DEFINITION. The operand forms: addresses and their two fields (spec R50, R51, R80), the page-id field (R83), byte order
(R56), store data and load results (R86, R87), the fit test (R124), the run-mode codes (R89). -/

namespace Sys2Proof.Machine

/-- The page id of an address, `addr[63:OFFSET_BITS]` (R50). -/
def pageIdOf (c : Config) (a : Word) : Nat := a.toNat / c.pageSize

/-- The in-page offset of an address, `addr[OFFSET_BITS-1:0]` (R50). -/
def offsetOf (c : Config) (a : Word) : Nat := a.toNat % c.pageSize

/-- `join(pid, off) = pid * PAGE_SIZE + off`, a flat address (R14, R51). -/
def joinAddr (c : Config) (pid off : Nat) : Word := BitVec.ofNat 64 (pid * c.pageSize + off)

/-- Operand `P`: the field has PAGE_ID_BITS bits (R83, R93), so the low PAGE_ID_BITS bits are all there is of it (log 10). -/
def pageIdOperand (c : Config) (p : Word) : Nat := p.toNat % c.pageCount

/-- The value of a byte sequence, lowest address first: the sum of byte `i` times `2^(8i)` (R56). -/
def leValue : List Byte → Nat
  | [] => 0
  | b :: t => b.toNat + 256 * leValue t

/-- The `n` bytes of a value, lowest address first: byte `i` is `v[8i+7:8i]` (R56). -/
def leBytes : Nat → Nat → List Byte
  | 0, _ => []
  | n + 1, v => BitVec.ofNat 8 v :: leBytes n (v / 256)

/-- `n` bytes follow one another from `a` on, modulo 2^64 (R7). -/
def addrAdd (a : Word) (n : Nat) : Word := a + BitVec.ofNat 64 n

/-- The width of an access as a power of two: N = 2^k bytes (R62). -/
def Width.log2 : Width → Nat
  | .byte => 0
  | .two => 1
  | .four => 2
  | .eight => 3

/-- The width of an access in bytes. -/
def Width.bytes (w : Width) : Nat := 2 ^ Width.log2 w

/-- Operand `D` of an N-byte store: `D[8N-1:0]` (R86). -/
def storeData (w : Width) (d : Word) : Nat := d.toNat % 2 ^ (8 * Width.bytes w)

/-- The result of a load: the value zero-extended to 64 bits (R87). -/
def loadResult (v : Nat) : Word := BitVec.ofNat 64 v

/-- `FitsInOnePage(offset, size)`: exact natural arithmetic, no wrap (R124). -/
def fitsInOnePage (c : Config) (off size : Nat) : Bool := decide (off + size ≤ c.pageSize)

/-- The intent operand `F` of BS_GET_ADDRESS selects (R121). -/
def intentOfFlag (f : Bool) : Intent := if f then .write else .read

/-- The mode a code `M` names (R89); code 3 is reserved. -/
def RunMode.ofCode (m : BitVec 2) : Option RunMode :=
  match m.toNat with
  | 0 => some .simple
  | 1 => some .basicBlockCached
  | 2 => some .disabled
  | _ => none

/-- The code of a mode (R89). -/
def RunMode.code : RunMode → BitVec 2
  | .simple => 0
  | .basicBlockCached => 1
  | .disabled => 2

end Sys2Proof.Machine
end

