-- ==== Sys2Proof/Machine/Ops.lean ====
section
/-! DEFINITION. The named operations: cells and pages, the page walk (spec R53), byte, N-byte and sequence accesses (R141 to R155),
the occupancy update (R153), the next unoccupied address (R126), answering, and fatal entry (R241). An operation that can
raise a fatal fault answers the fault record in place of its result; what it wrote before is released with the backing
store (R63). -/

namespace Sys2Proof.Machine

/-! ## The bytes of one page -/

/-- The byte at offset `k`. -/
def cellGet (d : List Host.Cell) (k : Nat) : Byte :=
  match d with
  | [] => unlistedByte
  | (k', v) :: t => if k' = k then v else cellGet t k

/-- Put a cell before the first one with a greater offset. -/
def cellInsert (k : Nat) (v : Byte) : List Host.Cell → List Host.Cell
  | [] => [(k, v)]
  | (k', v') :: t => if k < k' then (k, v) :: (k', v') :: t else (k', v') :: cellInsert k v t

/-- Take the cell of offset `k` out. -/
def cellErase (k : Nat) : List Host.Cell → List Host.Cell
  | [] => []
  | (k', v') :: t => if k' = k then cellErase k t else (k', v') :: cellErase k t

/-- Write the byte at offset `k`, keeping the canonical form. -/
def cellSet (d : List Host.Cell) (k : Nat) (v : Byte) : List Host.Cell :=
  if v = unlistedByte then cellErase k d else cellInsert k v (cellErase k d)

/-- `pg.data[off]` (R21). -/
def Page.byte (pg : Page) (off : Nat) : Byte := cellGet pg.data off

/-- `pg.data[off] <- v`. -/
def Page.setByte (pg : Page) (off : Nat) (v : Byte) : Page := { pg with data := cellSet pg.data off v }

/-- The `n` bytes of a page from `off` on, lowest first. -/
def Page.bytes (pg : Page) (off : Nat) : Nat → List Byte
  | 0 => []
  | n + 1 => pg.byte off :: Page.bytes pg (off + 1) n

/-- Write bytes into a page from `off` on, lowest first. -/
def Page.setBytes (pg : Page) (off : Nat) : List Byte → Page
  | [] => pg
  | b :: t => Page.setBytes (pg.setByte off b) (off + 1) t

/-- A page at its creation: every byte 0x00, free pointer 0 (R23). -/
def Page.fresh (pid : Nat) : Page := { id := pid, data := [], freePointer := 0 }

/-! ## The page map -/

/-- `pages[pid]`, where `pid` is committed (R14, R20). -/
def findPage (m : Memory) (pid : Nat) : Option Page :=
  match m with
  | [] => none
  | pg :: t => if pg.id = pid then some pg else findPage t pid

/-- Put a page before the first one with a greater id. -/
def insertPage (pg : Page) : Memory → Memory
  | [] => [pg]
  | q :: t => if pg.id < q.id then pg :: q :: t else q :: insertPage pg t

/-- Take the page `pid` out. -/
def erasePage (pid : Nat) : Memory → Memory
  | [] => []
  | q :: t => if q.id = pid then erasePage pid t else q :: erasePage pid t

/-- `pages[pg.id] <- pg`, keeping the canonical form. -/
def putPage (m : Memory) (pg : Page) : Memory := insertPage pg (erasePage pg.id m)

/-- The largest committed page id, `max(keys(pages))`; 0 where no page is committed. -/
def maxPageId (m : Memory) : Nat :=
  match m with
  | [] => 0
  | pg :: t => max pg.id (maxPageId t)

/-- Every byte of memory as the kernel sees it (R11), and as a frame is stated: nothing where the page is not committed
(R35, R66). -/
def memView (c : Config) (m : Memory) : MemView := fun a =>
  match findPage m (pageIdOf c a) with
  | some pg => some (pg.byte (offsetOf c a))
  | none => none

/-! ## The page walk -/

/-- The fault record of a failed lookup of offset `off` in page `pid` (R53, R242). -/
def lookupFault (c : Config) (pid off : Nat) : Intent → FatalRecord
  | .read => { cause := .pageFault, addr := joinAddr c pid off, intent := .read }
  | .write => { cause := .capacityExhausted, addr := joinAddr c pid off, intent := .write }

/-- Committing one more page would exceed the ceiling (R53, D2). -/
def capacityExceeded (c : Config) (m : Memory) : Bool := decide (c.capacity < (m.length + 1) * c.pageSize)

/-- The page walk `Lookup(pid, intent)` (R53): the page, and the page map, which only a WRITE of an uncommitted page
changes. `off` is the offset of the access. -/
def lookupPage (c : Config) (m : Memory) (pid off : Nat) (intent : Intent) : Except FatalRecord (Page × Memory) :=
  match findPage m pid with
  | some pg => .ok (pg, m)
  | none =>
    match intent with
    | .read => .error (lookupFault c pid off .read)
    | .write =>
      if capacityExceeded c m then .error (lookupFault c pid off .write)
      else .ok (Page.fresh pid, putPage m (Page.fresh pid))

/-! ## Bytes -/

/-- `LoadByte(addr)` (R141). -/
def loadByte (c : Config) (m : Memory) (a : Word) : Except FatalRecord Byte :=
  match lookupPage c m (pageIdOf c a) (offsetOf c a) .read with
  | .error f => .error f
  | .ok (pg, _) => .ok (pg.byte (offsetOf c a))

/-- `StoreByte(addr, value)` (R142). -/
def storeByte (c : Config) (m : Memory) (a : Word) (v : Byte) : Except FatalRecord Memory :=
  match lookupPage c m (pageIdOf c a) (offsetOf c a) .write with
  | .error f => .error f
  | .ok (pg, m') => .ok (putPage m' (pg.setByte (offsetOf c a) v))

/-! ## 2, 4 and 8 bytes: fast path and slow path -/

/-- `LoadN(a)` for N = 2^k (R143), the slow path halving it, lower half first (R144); N = 1 is `LoadByte`. -/
def loadN (c : Config) (m : Memory) : Nat → Word → Except FatalRecord Nat
  | 0, a =>
    match loadByte c m a with
    | .error f => .error f
    | .ok b => .ok b.toNat
  | k + 1, a =>
    if fitsInOnePage c (offsetOf c a) (2 ^ (k + 1)) then
      match lookupPage c m (pageIdOf c a) (offsetOf c a) .read with
      | .error f => .error f
      | .ok (pg, _) => .ok (leValue (pg.bytes (offsetOf c a) (2 ^ (k + 1))))
    else
      match loadN c m k a with
      | .error f => .error f
      | .ok lo =>
        match loadN c m k (addrAdd a (2 ^ k)) with
        | .error f => .error f
        | .ok hi => .ok (lo + hi * 2 ^ (8 * 2 ^ k))

/-- `StoreN(a, v)` for N = 2^k (R148), the slow path halving it, lower half first (R149); N = 1 is `StoreByte`. -/
def storeN (c : Config) (m : Memory) : Nat → Word → Nat → Except FatalRecord Memory
  | 0, a, v => storeByte c m a (BitVec.ofNat 8 v)
  | k + 1, a, v =>
    if fitsInOnePage c (offsetOf c a) (2 ^ (k + 1)) then
      match lookupPage c m (pageIdOf c a) (offsetOf c a) .write with
      | .error f => .error f
      | .ok (pg, m') => .ok (putPage m' (pg.setBytes (offsetOf c a) (leBytes (2 ^ (k + 1)) v)))
    else
      match storeN c m k a (v % 2 ^ (8 * 2 ^ k)) with
      | .error f => .error f
      | .ok m' => storeN c m' k (addrAdd a (2 ^ k)) (v / 2 ^ (8 * 2 ^ k))

/-- The load of a width (R62). -/
def loadWidth (c : Config) (m : Memory) (w : Width) (a : Word) : Except FatalRecord Nat := loadN c m (Width.log2 w) a

/-- The store of a width (R62), of operand `D` (R86). -/
def storeWidth (c : Config) (m : Memory) (w : Width) (a d : Word) : Except FatalRecord Memory :=
  storeN c m (Width.log2 w) a (storeData w d)

/-! ## Byte sequences -/

/-- The bytes of LOAD_SEQ, ascending (R155). -/
def loadBytes (c : Config) (m : Memory) (a : Word) : Nat → Except FatalRecord (List Byte)
  | 0 => .ok []
  | n + 1 =>
    match loadByte c m a with
    | .error f => .error f
    | .ok b =>
      match loadBytes c m (addrAdd a 1) n with
      | .error f => .error f
      | .ok t => .ok (b :: t)

/-- The byte stores of STORE_SEQ, ascending (R154). -/
def storeBytes (c : Config) (m : Memory) (a : Word) : List Byte → Except FatalRecord Memory
  | [] => .ok m
  | b :: t =>
    match storeByte c m a b with
    | .error f => .error f
    | .ok m' => storeBytes c m' (addrAdd a 1) t

/-- One iteration of the occupancy loop in a page whose free pointer is `fp`: the new free pointer, and how many of the `rem`
bytes from offset `off` on it consumes (R153): skip to the free pointer; or fill the gap and advance. -/
def occupyPage (c : Config) (fp off rem : Nat) : Nat × Nat :=
  if off < fp then (fp, min rem (fp - off)) else (off + min rem (c.pageSize - off), min rem (c.pageSize - off))

/-- `OccupancyUpdate(addr, length)` (R153). The first argument bounds the iterations; each consumes at least one byte, so
`length` of them are enough. -/
def occupancyUpdate (c : Config) (m : Memory) : Nat → Word → Nat → Except FatalRecord Memory
  | 0, _, _ => .ok m
  | fuel + 1, cur, rem =>
    if rem = 0 then .ok m
    else
      match lookupPage c m (pageIdOf c cur) (offsetOf c cur) .read with
      | .error f => .error f
      | .ok (pg, _) =>
        occupancyUpdate c
          (putPage m { pg with freePointer := (occupyPage c pg.freePointer (offsetOf c cur) rem).1 })
          fuel (addrAdd cur (occupyPage c pg.freePointer (offsetOf c cur) rem).2)
          (rem - (occupyPage c pg.freePointer (offsetOf c cur) rem).2)

/-- `StoreByteSequence(addr, bytes, length)` (R154): the bytes, then the occupancy update; a fatal fault leaves the update
out (C2). -/
def storeSequence (c : Config) (m : Memory) (a : Word) (bs : List Byte) : Except FatalRecord Memory :=
  match storeBytes c m a bs with
  | .error f => .error f
  | .ok m' => occupancyUpdate c m' bs.length a bs.length

/-! ## The next unoccupied address -/

/-- The first committed page with room, in ascending id order (R126). -/
def firstRoom (c : Config) (m : Memory) : Option Page :=
  match m with
  | [] => none
  | pg :: t => if pg.freePointer < c.pageSize then some pg else firstRoom c t

/-- `NextUnoccupiedAddress()` (R126). -/
def nextUnoccupied (c : Config) (m : Memory) : Except FatalRecord Word :=
  match firstRoom c m with
  | some pg => .ok (joinAddr c pg.id pg.freePointer)
  | none =>
    match m with
    | [] => .ok (joinAddr c 0 0)
    | _ :: _ =>
      if maxPageId m = c.pageCount - 1 then
        .error { cause := .capacityExhausted, addr := 0xFFFFFFFFFFFFFFFF, intent := .write }
      else .ok (joinAddr c (maxPageId m + 1) 0)

/-! ## Answering, and fatal entry -/

/-- The command answers on the response port (R82). -/
def State.answer (s : State) (r : Response) : State := { s with response := some r }

/-- The page map is replaced by what a command left. -/
def State.withPages (s : State) (m : Memory) : State := { s with pages := m }

/-- TAKING A FATAL FAULT, the block's one exception (R241, R253): the record is latched, the backing store released, the
current command or run stops at once with no report, and the status is FATAL. pc, icount, run_mode and the kernel's state
keep their values. There is no return from it (R244, R254): only a new construction (`State.construct`) leaves it. -/
def State.raiseFatal (s : State) (f : FatalRecord) : State :=
  { s with fatal := some f, pages := [], run := none, response := some (fatalResponse f) }

/-- While `fatal` is set every command answers FATAL with the recorded cause and changes no state (R245); this is checked
first (R252). -/
def unlessFatal (s : State) (o : Host.Outcome State Fault Refusal) : Host.Outcome State Fault Refusal :=
  match s.fatal with
  | some f => .next (s.answer (fatalResponse f))
  | none => o

/-- A command whose effect is `r`: the state it leaves, or fatal entry (R241). -/
def conclude (s : State) (r : Except FatalRecord State) : Host.Outcome State Fault Refusal :=
  match r with
  | .error f => .next (s.raiseFatal f)
  | .ok t => .next t

/-- A command that only answers a value computed from memory (R64). -/
def answerFrom {α : Type} (s : State) (r : Except FatalRecord α) (resp : α → Response) :
    Host.Outcome State Fault Refusal :=
  match r with
  | .error f => .next (s.raiseFatal f)
  | .ok v => .next (s.answer (resp v))

/-- A command that changes only the page map, and answers (R64). -/
def storeThrough (s : State) (r : Except FatalRecord Memory) (resp : Response) : Host.Outcome State Fault Refusal :=
  match r with
  | .error f => .next (s.raiseFatal f)
  | .ok m => .next ((s.withPages m).answer resp)

/-- A request that is no command: an illegal code answers ILLEGAL_COMMAND with no other change (R92, R251), after the fatal
check (R252); a `B` that is not `8 * L` bits wide is no request of the port (R83; log 11). -/
def rejectRequest (e : DecodeError) (s : State) : Host.Outcome State Fault Refusal :=
  match e with
  | .illegalCommand _ => unlessFatal s (.next (s.answer (statusOnly .illegalCommand)))
  | .sequenceLength => unlessFatal s (.refused .malformedRequest)

/-! ## The host's side of the port -/

/-- The host issues a request (R82). -/
def State.submit (s : State) (r : Request) : State := { s with requests := s.requests ++ [r] }

/-- The host answers the open of the LOAD_ELF that is waiting (R181, R282). -/
def State.answerFile (s : State) (i : HostFile) : State :=
  match s.requests with
  | [] => s
  | r :: t => { s with requests := { r with i := i } :: t }

/-- The host supplies the kernel's state before a run (R38). -/
def State.supplyKernelState (s : State) (ks : KState) : State := { s with kstate := ks }

/-- What a byte of memory holds, nothing where its page is not committed (R66). -/
def State.byteAt (s : State) (a : Word) : Option Byte := memView s.cfg s.pages a

/-- The free pointer of a page, nothing where it is not committed (R21). -/
def State.freePointerOf (s : State) (pid : Nat) : Option Nat :=
  match findPage s.pages pid with
  | some pg => some pg.freePointer
  | none => none

/-- The request is taken from the port. -/
def State.takeRequest (s : State) : Option (Request × State) :=
  match s.requests with
  | [] => none
  | r :: t => some (r, { s with requests := t })

end Sys2Proof.Machine
end

