-- ==== Sys2Proof/Machine/BackingStore.lean ====
section
/-! DEFINITION. The backing-store commands (spec 41_backing_store, R120 to R128). -/

namespace Sys2Proof.Machine

/-- The page map BS_GET_ADDRESS leaves (R121). -/
def resolveAddress (s : State) (p o : Word) (f : Bool) : Except FatalRecord Memory :=
  match lookupPage s.cfg s.pages (pageIdOperand s.cfg p) o.toNat (intentOfFlag f) with
  | .error r => .error r
  | .ok (_, m) => .ok m

/-- BS_GET_ADDRESS (R121): the handle is `join(P, O)` (R81). -/
def execBsGetAddress (p o : Word) (f : Bool) (s : State) : Host.Outcome State Fault Refusal :=
  unlessFatal s
    (if s.cfg.pageSize ≤ o.toNat then .next (s.answer (statusOnly .refused))
     else storeThrough s (resolveAddress s p o f) (okResult (joinAddr s.cfg (pageIdOperand s.cfg p) o.toNat)))

/-- BS_GET_PAGE (R123): never allocates; the page reference is its id. -/
def execBsGetPage (p : Word) (s : State) : Host.Outcome State Fault Refusal :=
  unlessFatal s
    (answerFrom s (lookupPage s.cfg s.pages (pageIdOperand s.cfg p) 0 .read) fun _ =>
      okResult (BitVec.ofNat 64 (pageIdOperand s.cfg p)))

/-- BS_FITS (R124): reads no page. -/
def execBsFits (o size : Word) (s : State) : Host.Outcome State Fault Refusal :=
  unlessFatal s (.next (s.answer (okResult (if fitsInOnePage s.cfg o.toNat size.toNat then 1 else 0))))

/-- BS_NEXT_UNOCC (R126). -/
def execBsNextUnocc (s : State) : Host.Outcome State Fault Refusal :=
  unlessFatal s (answerFrom s (nextUnoccupied s.cfg s.pages) okResult)

end Sys2Proof.Machine
end

