-- ==== Sys2Proof/Machine/ElfLoader.lean ====
section
/-! DEFINITION. The ELF segment loader (spec 43_elf_loader, R180 to R199; field layout R95, R96). -/

namespace Sys2Proof.Machine

/-- The little-endian unsigned field of `n` bytes at image offset `o` (R95): `u16`, `u32`, `u64` for 2, 4, 8. -/
def elfField (img : List Byte) (o n : Nat) : Nat := leValue ((img.drop o).take n)

/-- The program-header fields the loader reads (R96). -/
structure ProgramHeader where
  type : Nat
  offset : Nat
  vaddr : Nat
  filesz : Nat
  memsz : Nat
deriving DecidableEq, Repr

/-- `e_entry` (R95). -/
def elfEntry (img : List Byte) : Nat := elfField img 0x18 8

/-- `e_phoff` (R95). -/
def elfPhoff (img : List Byte) : Nat := elfField img 0x20 8

/-- `e_phentsize` (R95). -/
def elfPhentsize (img : List Byte) : Nat := elfField img 0x36 2

/-- `e_phnum` (R95). -/
def elfPhnum (img : List Byte) : Nat := elfField img 0x38 2

/-- The program header at image offset `o` (R96). -/
def programHeaderAt (img : List Byte) (o : Nat) : ProgramHeader where
  type := elfField img o 4
  offset := elfField img (o + 0x08) 8
  vaddr := elfField img (o + 0x10) 8
  filesz := elfField img (o + 0x20) 8
  memsz := elfField img (o + 0x28) 8

/-- `n` program headers from image offset `o` on, in table order (R96, R194). -/
def programHeadersFrom (img : List Byte) (o : Nat) : Nat → List ProgramHeader
  | 0 => []
  | n + 1 => programHeaderAt img o :: programHeadersFrom img (o + 56) n

/-- The program-header table (R96). -/
def programHeaders (img : List Byte) : List ProgramHeader := programHeadersFrom img (elfPhoff img) (elfPhnum img)

/-- The header is written into memory: PT_LOAD, and `p_filesz <= p_memsz` (R191). -/
def ProgramHeader.selected (h : ProgramHeader) : Bool := decide (h.type = 1) && decide (h.filesz ≤ h.memsz)

/-- The table is malformed (R189). -/
def phdrTableMalformed (img : List Byte) : Bool :=
  decide (0 < elfPhnum img) &&
    (decide (elfPhentsize img ≠ 56) || decide (img.length < elfPhoff img + elfPhnum img * 56))

/-- A selected header's file bytes lie outside the image (R190). -/
def segmentOutOfRange (img : List Byte) (h : ProgramHeader) : Bool :=
  h.selected && decide (img.length < h.offset + h.filesz)

/-- `Check(img)` (R183): the checks of R184 to R190 in that order, the first that fails. -/
def checkImage (img : List Byte) : Option LoaderError :=
  if img.length < 64 then some .truncatedHeader
  else if img.take 4 ≠ [0x7F#8, 0x45#8, 0x4C#8, 0x46#8] then some .badMagic
  else if elfField img 0x04 1 ≠ 2 then some .badClass
  else if elfField img 0x05 1 ≠ 1 then some .badData
  else if elfField img 0x12 2 ≠ 243 then some .badMachine
  else if phdrTableMalformed img then some .malformedPhdrTable
  else if (programHeaders img).any (segmentOutOfRange img) then some .segmentRange
  else none

/-- The file bytes of a segment, `img[p_offset .. p_offset + p_filesz - 1]` (R192). -/
def segmentBytes (img : List Byte) (h : ProgramHeader) : List Byte := (img.drop h.offset).take h.filesz

/-- The selected segments are written by STORE_SEQ, in table order (R180, R192, R194). -/
def loadSegments (c : Config) (img : List Byte) (m : Memory) : List ProgramHeader → Except FatalRecord Memory
  | [] => .ok m
  | h :: t =>
    if h.selected then
      match storeSequence c m (BitVec.ofNat 64 h.vaddr) (segmentBytes img h) with
      | .error f => .error f
      | .ok m' => loadSegments c img m' t
    else loadSegments c img m t

/-- A load of an image: a loader error changes nothing (R196), a checked image is written and its entry point answered
(R195); the program counter is not written (R195). -/
def loadImage (img : List Byte) (s : State) : Host.Outcome State Fault Refusal :=
  match checkImage img with
  | some e => .next (s.answer (loaderErrorResponse e))
  | none => storeThrough s (loadSegments s.cfg img s.pages (programHeaders img)) (okResult (BitVec.ofNat 64 (elfEntry img)))

/-- LOAD_ELF (R180): no step until the host answers the open (R181, R282; log 12). -/
def execLoadElf (i : HostFile) (s : State) : Host.Outcome State Fault Refusal :=
  unlessFatal s
    (match i with
     | .pending => .fault .hostFilePending
     | .cannotOpen => .next (s.answer (loaderErrorResponse .openFailed))
     | .image img => loadImage img s)

end Sys2Proof.Machine
end

