-- ==== Sys2Proof/Machine/ExecLoop.lean ====
section
/-! DEFINITION. The fetch arbiter and run-mode dispatcher (spec 44_exec_loop, R210 to R228). Each operation takes the kernel as an
argument (R11); the commands give it the block's own, `Config.kernel`. -/

namespace Sys2Proof.Machine

/-! ## The cycle -/

/-- What the kernel reports at the end of `Execute` (R210). -/
inductive KernelVerdict where
  | next (pc : Word) (ks : KState)
  | fault (code : BitVec 8)
deriving DecidableEq, Repr

/-- `Execute` runs: its memory commands one at a time, in the order it issues them, with the rules of 42_vm_access (R210,
R213); a fatal fault in one ends it at once (R215). -/
def runKernelProg (c : Config) (m : Memory) : KernelProg → Except FatalRecord (KernelVerdict × Memory)
  | .next pc ks => .ok (.next pc ks, m)
  | .kernelFault k => .ok (.fault k, m)
  | .load w a k =>
    match loadWidth c m w a with
    | .error f => .error f
    | .ok v => runKernelProg c m (k (loadResult v))
  | .store w a d k =>
    match storeWidth c m w a d with
    | .error f => .error f
    | .ok m' => runKernelProg c m' k
  | .loadSeq a l k =>
    match loadBytes c m a l.toNat with
    | .error f => .error f
    | .ok q => runKernelProg c m (k q)
  | .storeSeq a b k =>
    match storeSequence c m a b with
    | .error f => .error f
    | .ok m' => runKernelProg c m' k

/-- Fetch: the 4-byte little-endian load at `pc` (R212, R57). -/
def fetchWord (s : State) : Except FatalRecord (BitVec 32) :=
  match loadWidth s.cfg s.pages .four s.pc with
  | .error f => .error f
  | .ok w => .ok (BitVec.ofNat 32 w)

/-- How one cycle ends (R215). -/
inductive CycleEnd where
  | completed (s : State)
  | kernelFault (code : BitVec 8) (s : State)
  | fatal (f : FatalRecord)
deriving DecidableEq, Repr

/-- The write-back of a completed cycle: next pc, kernel state, count modulo 2^64 (R214, R215). -/
def State.writeBack (s : State) (m : Memory) (pc : Word) (ks : KState) : State :=
  { s with pages := m, pc := pc, kstate := ks, icount := s.icount + 1 }

/-- What the kernel does with a fetched word (R210, R215). -/
def executeWord (K : Kernel) (s : State) (w : BitVec 32) : Except FatalRecord (KernelVerdict × Memory) :=
  runKernelProg s.cfg s.pages (K.execute (K.decode w) s.pc s.kstate (memView s.cfg s.pages))

/-- `Cycle()` (R215), for `pc != 0`: fetch, decode, execute, write-back. On a kernel fault the memory effects stay and pc and
icount do not change. -/
def cycle (K : Kernel) (s : State) : CycleEnd :=
  match fetchWord s with
  | .error f => .fatal f
  | .ok w =>
    match executeWord K s w with
    | .error f => .fatal f
    | .ok (.next pc ks, m) => .completed (s.writeBack m pc ks)
    | .ok (.fault k, m) => .kernelFault k (s.withPages m)

/-! ## RUN_STEP -/

/-- `RunStep()` with a kernel (R216): run_mode plays no part, icount is not cleared. -/
def runStepWith (K : Kernel) (s : State) : Host.Outcome State Fault Refusal :=
  if s.pc = 0 then .next (s.answer (statusOnly .halted))
  else
    match cycle K s with
    | .completed t => .next (t.answer (statusOnly .stepped))
    | .kernelFault k t => .next (t.answer (kernelFaultResponse k))
    | .fatal f => .next (s.raiseFatal f)

/-- RUN_STEP (R216). -/
def execRunStep (s : State) : Host.Outcome State Fault Refusal := unlessFatal s (runStepWith Config.kernel s)

/-! ## Instrumentation -/

/-- The elapsed milliseconds of the run that took clock draw `n`: any non-negative value (R227). -/
def elapsedMs (n : Nat) : Rat := mkRat (Config.elapsedNumerator n) (Config.elapsedDenominatorLess1 n + 1)

/-- MIPS: the count over the elapsed microseconds when they are above 0, any value otherwise (R227). -/
def mipsOf (count : Word) (n : Nat) : Option Rat :=
  if 0 < elapsedMs n then some ((count.toNat : Rat) / (elapsedMs n * 1000)) else Config.mipsAtZeroTime n

/-- The report event of a run that took clock draw `n` (R225). -/
def reportOf (count : Word) (n : Nat) : Report := { count := count, elapsedMs := elapsedMs n, mips := mipsOf count n }

/-- The three lines of text of a report on the diagnostic stream (R226). -/
def Report.text (r : Report) : Vector String 3 := Config.reportFormat r.count r.elapsedMs r.mips

/-- The report a run adds to the diagnostic stream: one if its measure flag is set, else none (R225). -/
def Run.reports (run : Run) (count : Word) : List Report :=
  match run.measure with
  | some n => [reportOf count n]
  | none => []

/-! ## RUN_TO_COMPLETION -/

/-- A run ends with an answer OK or KERNEL_FAULT, and its report (R217, R225). -/
def State.endRun (s : State) (run : Run) (r : Response) : State :=
  { s with run := none, reports := s.reports ++ run.reports s.icount, response := some r }

/-- A run begins: the mode is written, the counter cleared, and with the measure flag set a clock draw taken (R217). The
request is outstanding, so nothing is answered yet. -/
def State.beginRun (s : State) (mode : RunMode) (x : Bool) : State :=
  { s with
    runMode := mode
    icount := 0
    run := some { measure := if x then some s.draws else none }
    draws := if x then s.draws + 1 else s.draws
    response := none }

/-- The dispatch on run_mode right after a run began (R217): a Simple run goes on in later steps, one pass of the loop of R218
each (log 5); a Disabled run performs no execution and ends (R220). BasicBlockCached does not get here (R222). -/
def dispatchRun (s : State) : Host.Outcome State Fault Refusal :=
  match s.run with
  | none => .next s
  | some run =>
    match s.runMode with
    | .simple => .next s
    | .disabled => .next (s.endRun run okDone)
    | .basicBlockCached => .next (({ s with run := none } : State).answer (statusOnly .unimplemented))

/-- RUN_TO_COMPLETION (R217): M = 3 is REFUSED (R221) and M = 1 UNIMPLEMENTED (R222), each with no other change. -/
def execRunToCompletion (m : BitVec 2) (x : Bool) (s : State) : Host.Outcome State Fault Refusal :=
  unlessFatal s
    (match RunMode.ofCode m with
     | none => .next (s.answer (statusOnly .refused))
     | some .basicBlockCached => .next (s.answer (statusOnly .unimplemented))
     | some .simple => dispatchRun (s.beginRun .simple x)
     | some .disabled => dispatchRun (s.beginRun .disabled x))

/-- One pass of the loop of a Simple run (R218): the sentinel is tested before the fetch; a run ends with OK at `pc = 0`, with
KERNEL_FAULT when the kernel faults (R224), with FATAL and no report on a fatal fault (R223). -/
def continueRun (K : Kernel) (run : Run) (s : State) : Host.Outcome State Fault Refusal :=
  unlessFatal s
    (if s.pc = 0 then .next (s.endRun run okDone)
     else
      match cycle K s with
      | .completed t => .next t
      | .kernelFault k t => .next (t.endRun run (kernelFaultResponse k))
      | .fatal f => .next (s.raiseFatal f))

end Sys2Proof.Machine
end

