-- ==== Sys2Proof/Machine/PageCmds.lean ====
section
/-! DEFINITION. The page commands (spec 40_page, R110 to R114): each reaches its page by `Lookup(P, READ)`. -/

namespace Sys2Proof.Machine

/-- The page a page command names: `Lookup(P, READ)`, faulting at `join(P, 0)` (R110, R123). -/
def pageOperand (s : State) (p : Word) : Except FatalRecord Page :=
  match lookupPage s.cfg s.pages (pageIdOperand s.cfg p) 0 .read with
  | .error f => .error f
  | .ok (pg, _) => .ok pg

/-- The page map with the free pointer of one page replaced (R112). -/
def setFreePointer (s : State) (p v : Word) : Except FatalRecord Memory :=
  match pageOperand s p with
  | .error f => .error f
  | .ok pg => .ok (putPage s.pages { pg with freePointer := v.toNat })

/-- PG_GET_FP (R111). -/
def execPgGetFp (p : Word) (s : State) : Host.Outcome State Fault Refusal :=
  unlessFatal s (answerFrom s (pageOperand s p) fun pg => okResult (BitVec.ofNat 64 pg.freePointer))

/-- PG_SET_FP (R112): the range check comes first, so a refused command never faults. -/
def execPgSetFp (p v : Word) (s : State) : Host.Outcome State Fault Refusal :=
  unlessFatal s
    (if s.cfg.pageSize < v.toNat then .next (s.answer (statusOnly .refused))
     else storeThrough s (setFreePointer s p v) okDone)

/-- PG_OCCUPIED (R113): `occupied_size = free_pointer`. -/
def execPgOccupied (p : Word) (s : State) : Host.Outcome State Fault Refusal :=
  unlessFatal s (answerFrom s (pageOperand s p) fun pg => okResult (BitVec.ofNat 64 pg.freePointer))

/-- PG_FREE (R114): `free_size = PAGE_SIZE - free_pointer`. -/
def execPgFree (p : Word) (s : State) : Host.Outcome State Fault Refusal :=
  unlessFatal s
    (answerFrom s (pageOperand s p) fun pg => okResult (BitVec.ofNat 64 (s.cfg.pageSize - pg.freePointer)))

end Sys2Proof.Machine
end

