-- ==== Sys2Proof/Machine/VmAccess.lean ====
section
/-! DEFINITION. The VirtualMemory access commands and the host commands on the loop's registers (spec 42_vm_access, R140 to R162). -/

namespace Sys2Proof.Machine

/-- LOAD_BYTE (R141). -/
def execLoadByte (a : Word) (s : State) : Host.Outcome State Fault Refusal :=
  unlessFatal s (answerFrom s (loadByte s.cfg s.pages a) fun b => okResult (loadResult b.toNat))

/-- LOAD_TWO (R145). -/
def execLoadTwo (a : Word) (s : State) : Host.Outcome State Fault Refusal :=
  unlessFatal s (answerFrom s (loadWidth s.cfg s.pages .two a) fun v => okResult (loadResult v))

/-- LOAD_FOUR (R146). -/
def execLoadFour (a : Word) (s : State) : Host.Outcome State Fault Refusal :=
  unlessFatal s (answerFrom s (loadWidth s.cfg s.pages .four a) fun v => okResult (loadResult v))

/-- LOAD_EIGHT (R147). -/
def execLoadEight (a : Word) (s : State) : Host.Outcome State Fault Refusal :=
  unlessFatal s (answerFrom s (loadWidth s.cfg s.pages .eight a) fun v => okResult (loadResult v))

/-- STORE_BYTE (R142). -/
def execStoreByte (a d : Word) (s : State) : Host.Outcome State Fault Refusal :=
  unlessFatal s (storeThrough s (storeByte s.cfg s.pages a (BitVec.ofNat 8 (storeData .byte d))) okDone)

/-- STORE_TWO (R150). -/
def execStoreTwo (a d : Word) (s : State) : Host.Outcome State Fault Refusal :=
  unlessFatal s (storeThrough s (storeWidth s.cfg s.pages .two a d) okDone)

/-- STORE_FOUR (R151). -/
def execStoreFour (a d : Word) (s : State) : Host.Outcome State Fault Refusal :=
  unlessFatal s (storeThrough s (storeWidth s.cfg s.pages .four a d) okDone)

/-- STORE_EIGHT (R152). -/
def execStoreEight (a d : Word) (s : State) : Host.Outcome State Fault Refusal :=
  unlessFatal s (storeThrough s (storeWidth s.cfg s.pages .eight a d) okDone)

/-- LOAD_SEQ (R155). -/
def execLoadSeq (a l : Word) (s : State) : Host.Outcome State Fault Refusal :=
  unlessFatal s (answerFrom s (loadBytes s.cfg s.pages a l.toNat) okSeq)

/-- STORE_SEQ (R154): the bytes `B[0]` to `B[L-1]`. -/
def execStoreSeq (a l : Word) (b : List Byte) (s : State) : Host.Outcome State Fault Refusal :=
  unlessFatal s (storeThrough s (storeSequence s.cfg s.pages a (b.take l.toNat)) okDone)

/-- NEXT_BLOCK (R156): the answer of BS_NEXT_UNOCC. -/
def execNextBlock (s : State) : Host.Outcome State Fault Refusal :=
  unlessFatal s (answerFrom s (nextUnoccupied s.cfg s.pages) okResult)

/-- SET_PC (R160). -/
def execSetPc (d : Word) (s : State) : Host.Outcome State Fault Refusal :=
  unlessFatal s (.next (({ s with pc := d } : State).answer okDone))

/-- GET_PC (R161). -/
def execGetPc (s : State) : Host.Outcome State Fault Refusal :=
  unlessFatal s (.next (s.answer (okResult s.pc)))

/-- GET_COUNT (R162). -/
def execGetCount (s : State) : Host.Outcome State Fault Refusal :=
  unlessFatal s (.next (s.answer (okResult s.icount)))

end Sys2Proof.Machine
end

