-- ==== Sys2Proof/Machine/Dispatch.lean ====
section
/-! DEFINITION. The dispatch: one arm per command, each one call of its meaning. -/

namespace Sys2Proof.Machine

/-- What a command does (spec/opcode_table.json, one arm per row). -/
def exec (i : Instr) (s : State) : Host.Outcome State Fault Refusal :=
  match i with
  | .loadByte a => Sys2Proof.Machine.execLoadByte a s
  | .loadTwo a => Sys2Proof.Machine.execLoadTwo a s
  | .loadFour a => Sys2Proof.Machine.execLoadFour a s
  | .loadEight a => Sys2Proof.Machine.execLoadEight a s
  | .storeByte a d => Sys2Proof.Machine.execStoreByte a d s
  | .storeTwo a d => Sys2Proof.Machine.execStoreTwo a d s
  | .storeFour a d => Sys2Proof.Machine.execStoreFour a d s
  | .storeEight a d => Sys2Proof.Machine.execStoreEight a d s
  | .loadSeq a l => Sys2Proof.Machine.execLoadSeq a l s
  | .storeSeq a l b => Sys2Proof.Machine.execStoreSeq a l b s
  | .nextBlock => Sys2Proof.Machine.execNextBlock s
  | .loadElf f => Sys2Proof.Machine.execLoadElf f s
  | .bsGetAddress p o f => Sys2Proof.Machine.execBsGetAddress p o f s
  | .bsGetPage p => Sys2Proof.Machine.execBsGetPage p s
  | .bsFits o z => Sys2Proof.Machine.execBsFits o z s
  | .bsNextUnocc => Sys2Proof.Machine.execBsNextUnocc s
  | .pgGetFp p => Sys2Proof.Machine.execPgGetFp p s
  | .pgSetFp p v => Sys2Proof.Machine.execPgSetFp p v s
  | .pgOccupied p => Sys2Proof.Machine.execPgOccupied p s
  | .pgFree p => Sys2Proof.Machine.execPgFree p s
  | .runStep => Sys2Proof.Machine.execRunStep s
  | .runToCompletion m x => Sys2Proof.Machine.execRunToCompletion m x s
  | .setPc d => Sys2Proof.Machine.execSetPc d s
  | .getPc => Sys2Proof.Machine.execGetPc s
  | .getCount => Sys2Proof.Machine.execGetCount s

end Sys2Proof.Machine
end

