-- ==== Sys2Proof/Machine/Step.lean ====
section
/-! DEFINITION. One step of the block: a pass of the run in progress, or the next command of the port (spec R12, R82, R218; log 4,
log 5). -/

namespace Sys2Proof.Machine

/-- A request taken from the port: its command runs, or it is rejected by name (R92, R252). -/
def runRequest (r : Request) (s : State) : Host.Outcome State Fault Refusal :=
  match decode r with
  | .ok i => exec i s
  | .error e => rejectRequest e s

/-- One step. A run in progress goes on before any other request is taken (R12); with no request the block holds its state
(R262). -/
def step (s : State) : Host.Outcome State Fault Refusal :=
  match s.run with
  | some run => continueRun Config.kernel run s
  | none =>
    match s.takeRequest with
    | some (r, t) => runRequest r t
    | none => .next s

/-- The state whose very next step takes the request of an opcode-table word: no run is in progress, and the request is the
first on the port (log 14). -/
def State.withFetchWord (s : State) (nbits w : Nat) : State :=
  { s with run := none, requests := requestOfTableWord nbits w :: s.requests }

end Sys2Proof.Machine
end

