-- ==== Sys2Proof/Safety.lean ====
section
/-! DEFINITION. What counts as a safe run, and the predicates statements are written in: the invariant of the block, committed
bytes, and room under the capacity ceiling. -/

namespace Sys2Proof.Machine

/-- A safe run records no fatal fault: every claim about a command's own effect takes this as its premise (spec D6). -/
abbrev Safe (s : State) : Prop := s.fatal = none

/-- The byte at an address can be read: its page is committed (R35, R66). -/
abbrev Committed (s : State) (a : Word) : Prop := (s.byteAt a).isSome = true

/-- The `n` addresses from `a` on, ascending, modulo 2^64 (R7). -/
def addrRange (a : Word) : Nat → List Word
  | 0 => []
  | n + 1 => a :: addrRange (addrAdd a 1) n

/-- How many pages a store to these addresses, in this order, must commit: those not `known` before it (R53). -/
def pagesNeeded (c : Config) (known : Nat → Bool) : List Word → Nat
  | [] => 0
  | a :: t =>
    if known (pageIdOf c a) then pagesNeeded c known t
    else pagesNeeded c (fun p => decide (p = pageIdOf c a) || known p) t + 1

/-- A page id is committed (R20). -/
def isCommitted (m : Memory) (pid : Nat) : Bool := (findPage m pid).isSome

/-- A store to these addresses stays under the ceiling: it commits no page, or all it commits fit (R53, R128). -/
abbrev RoomFor (s : State) (as : List Word) : Prop :=
  pagesNeeded s.cfg (isCommitted s.pages) as = 0 ∨
    (s.pages.length + pagesNeeded s.cfg (isCommitted s.pages) as) * s.cfg.pageSize ≤ s.cfg.capacity

/-- One of the addresses lies in page `p`. -/
def touches (c : Config) (as : List Word) (p : Nat) : Bool := as.any fun a => decide (pageIdOf c a = p)

/-- A free pointer pushed up to one past every one of the addresses that lies in page `p`. -/
def highWater (c : Config) (p : Nat) : Nat → List Word → Nat
  | f, [] => f
  | f, a :: t => highWater c p (if pageIdOf c a = p then max f (offsetOf c a + 1) else f) t

/-- The commands a READ-intent lookup of which can raise PAGE_FAULT (the table of R240), in the command's own step; RUN_STEP by
its fetch and by the kernel. A RUN_TO_COMPLETION raises it in the steps of its run (R223; log 5). -/
def mayPageFault : Instr → Bool
  | .loadByte _ | .loadTwo _ | .loadFour _ | .loadEight _ | .loadSeq _ _ => true
  | .bsGetAddress _ _ f => !f
  | .bsGetPage _ | .pgGetFp _ | .pgSetFp _ _ | .pgOccupied _ | .pgFree _ => true
  | .runStep => true
  | .storeByte _ _ | .storeTwo _ _ | .storeFour _ _ | .storeEight _ _ | .storeSeq _ _ _ | .nextBlock | .loadElf _ => false
  | .bsFits _ _ | .bsNextUnocc | .runToCompletion _ _ | .setPc _ | .getPc | .getCount => false

/-- The commands that can raise CAPACITY_EXHAUSTED (the table of R240), in the command's own step; RUN_STEP by the kernel. A
RUN_TO_COMPLETION raises it in the steps of its run (R223; log 5). -/
def mayExhaustCapacity : Instr → Bool
  | .storeByte _ _ | .storeTwo _ _ | .storeFour _ _ | .storeEight _ _ | .storeSeq _ _ _ | .loadElf _ => true
  | .bsGetAddress _ _ f => f
  | .bsNextUnocc | .nextBlock => true
  | .runStep => true
  | .loadByte _ | .loadTwo _ | .loadFour _ | .loadEight _ | .loadSeq _ _ => false
  | .bsGetPage _ | .pgGetFp _ | .pgSetFp _ _ | .pgOccupied _ | .pgFree _ => false
  | .bsFits _ _ | .runToCompletion _ _ | .setPc _ | .getPc | .getCount => false

/-- The commands whose own step can move the free pointer of a committed page (R64, R193): STORE_SEQ, the loader that uses it,
PG_SET_FP, and RUN_STEP by its kernel. A run's kernel moves them in the steps after RUN_TO_COMPLETION (log 5). -/
def MovesFreePointers (i : Instr) : Prop :=
  (∃ a l b, i = .storeSeq a l b) ∨ (∃ h, i = .loadElf h) ∨ (∃ q v, i = .pgSetFp q v) ∨ i = .runStep

/-- The commands that only read (R64, R111, R113, R114, R120, R123, R124, R126, R156, R161, R162). -/
def onlyReads : Instr → Bool
  | .loadByte _ | .loadTwo _ | .loadFour _ | .loadEight _ | .loadSeq _ _ => true
  | .nextBlock | .bsNextUnocc | .bsGetPage _ | .bsFits _ _ | .pgGetFp _ | .pgOccupied _ | .pgFree _ => true
  | .getPc | .getCount => true
  | .bsGetAddress _ _ f => !f
  | .storeByte _ _ | .storeTwo _ _ | .storeFour _ _ | .storeEight _ _ | .storeSeq _ _ _ | .loadElf _ => false
  | .pgSetFp _ _ | .runStep | .runToCompletion _ _ | .setPc _ => false

/-- The invariant of the block: memory is in its canonical form with every free pointer in its range (R20 to R22), committed
memory stays under the ceiling (R24), the fatal state holds no memory and no run (R241, R244), only a Simple run is ever in
progress (R217), and run_mode is never BasicBlockCached (R222). -/
abbrev Inv (s : State) : Prop :=
  Memory.wf s.cfg s.pages = true ∧
  s.pages.length * s.cfg.pageSize ≤ s.cfg.capacity ∧
  (s.fatal.isSome = true → s.pages = [] ∧ s.run = none) ∧
  (s.run.isSome = true → s.runMode = .simple) ∧
  s.runMode ≠ .basicBlockCached

/-- `n` passes of the loop of a Simple run with a kernel (R218), as long as the run is in progress. -/
def runPasses (K : Kernel) : Nat → State → Host.Outcome State Fault Refusal
  | 0, s => .next s
  | n + 1, s =>
    match s.run with
    | none => .next s
    | some run =>
      match continueRun K run s with
      | .next t => runPasses K n t
      | .fault r => .fault r
      | .refused r => .refused r

/-- `n` cycles complete one after another, none of them at the sentinel (R215, R218), and leave the state given. -/
def cyclesComplete (K : Kernel) : Nat → State → Option State
  | 0, s => some s
  | n + 1, s =>
    if s.pc = 0 then none
    else
      match cycle K s with
      | .completed t => cyclesComplete K n t
      | .kernelFault _ _ => none
      | .fatal _ => none

end Sys2Proof.Machine
end

