-- ==== Sys2Proof/Certificates/Slice0/Obligations.lean ====
section
/-! DEFINITION. The statements for the provers, from the numbered rules of the spec. A statement holds for every instance of the
block: OFFSET_BITS and CAPACITY are fields of the state. -/

namespace Sys2Proof.Statements

open Sys2Proof.Machine

/-! ## Words the statements are written in -/

/-- The load command of a width (R85). -/
def loadInstr : Width → Word → Instr
  | .byte => .loadByte
  | .two => .loadTwo
  | .four => .loadFour
  | .eight => .loadEight

/-- The store command of a width (R85). -/
def storeInstr : Width → Word → Word → Instr
  | .byte => .storeByte
  | .two => .storeTwo
  | .four => .storeFour
  | .eight => .storeEight

/-- The sum over `i < n` of byte `i` times `2^(8i)` (R56). -/
def byteSum (f : Nat → Byte) : Nat → Nat
  | 0 => 0
  | n + 1 => byteSum f n + (f n).toNat * 2 ^ (8 * n)

/-- Byte `i` of a value: `d[8i+7:8i]` (R56). -/
def byteOf (d : Word) (i : Nat) : Byte := (d >>> (8 * i)).setWidth 8

/-- What a byte that a store does not store to reads as after it (R23, R142): in a page it touched, what it read as before, or 0
where the store committed the page; elsewhere, what it read as before. -/
def unstored (s : State) (as : List Word) (x : Word) : Option Byte :=
  if touches s.cfg as (pageIdOf s.cfg x) then some ((s.byteAt x).getD 0) else s.byteAt x

/-- What a free pointer is after a store that moves none (R64, R23): as before, and 0 in a page the store committed. -/
def freePointerKept (s : State) (as : List Word) (p : Nat) : Option Nat :=
  match s.freePointerOf p with
  | some f => some f
  | none => if touches s.cfg as p then some 0 else none

/-- The state a command leaves with an answer and nothing else changed. -/
def answered (s : State) (r : Response) : State := { s with response := some r }

/-- The fields a request's format lists; every other field undriven (R83, R84). -/
def listedFields (r : Request) : Request :=
  if r.op ∈ [0x01#8, 0x02#8, 0x03#8, 0x04#8] then { op := r.op, a := r.a }
  else if r.op ∈ [0x05#8, 0x06#8, 0x07#8, 0x08#8] then { op := r.op, a := r.a, d := r.d }
  else if r.op = 0x09#8 then { op := r.op, a := r.a, l := r.l }
  else if r.op = 0x0A#8 then { op := r.op, a := r.a, l := r.l, b := r.b }
  else if r.op = 0x0C#8 then { op := r.op, i := r.i }
  else if r.op = 0x10#8 then { op := r.op, p := r.p, o := r.o, f := r.f }
  else if r.op ∈ [0x11#8, 0x18#8, 0x1A#8, 0x1B#8] then { op := r.op, p := r.p }
  else if r.op = 0x12#8 then { op := r.op, o := r.o, s := r.s }
  else if r.op = 0x19#8 then { op := r.op, p := r.p, v := r.v }
  else if r.op = 0x21#8 then { op := r.op, m := r.m, x := r.x }
  else if r.op = 0x22#8 then { op := r.op, d := r.d }
  else { op := r.op }

/-- What one cycle does to a state, once the fetched word is known (R215): `done` and `kfault` say what the command adds when the
cycle completes and when the kernel faults. -/
def afterCycle (K : Kernel) (s : State) (w : BitVec 32) (done : State → State) (kfault : BitVec 8 → State → State) :
    State :=
  match runKernelProg s.cfg s.pages (K.execute (K.decode w) s.pc s.kstate s.byteAt) with
  | .ok (.next pc ks, m) => done { s with pages := m, pc := pc, kstate := ks, icount := s.icount + 1 }
  | .ok (.fault k, m) => kfault k { s with pages := m }
  | .error f => { s with fatal := some f, pages := [], run := none, response := some { st := .fatal, e := some f.cause.code } }

/-- The state after fatal entry (R241). -/
def fatalState (s : State) (f : FatalRecord) : State :=
  { s with fatal := some f, pages := [], run := none, response := some { st := .fatal, e := some f.cause.code } }

/-- A little-endian field of an image (R95). -/
def imageField (img : List Byte) (o n : Nat) : Nat := byteSum (fun i => img.getD (o + i) 0) n

/-- The image offset of program header `k` (R96). -/
def headerOffset (img : List Byte) (k : Nat) : Nat := imageField img 0x20 8 + k * 56

/-- Program header `k` selects a segment (R191, R96). -/
def segmentSelected (img : List Byte) (k : Nat) : Bool :=
  decide (imageField img (headerOffset img k) 4 = 1) &&
    decide (imageField img (headerOffset img k + 0x20) 8 ≤ imageField img (headerOffset img k + 0x28) 8)

/-- `p_offset`, `p_vaddr` and `p_filesz` of program header `k` (R96). -/
def segmentOffset (img : List Byte) (k : Nat) : Nat := imageField img (headerOffset img k + 0x08) 8

/-- See `segmentOffset`. -/
def segmentVaddr (img : List Byte) (k : Nat) : Word := BitVec.ofNat 64 (imageField img (headerOffset img k + 0x10) 8)

/-- See `segmentOffset`. -/
def segmentFilesz (img : List Byte) (k : Nat) : Nat := imageField img (headerOffset img k + 0x20) 8

/-- The indexes of the selected segments of an image, in table order (R194). -/
def selectedSegments (img : List Byte) : List Nat := (List.range (imageField img 0x38 2)).filter (segmentSelected img)

/-- The addresses an image's segments are written to, in the order they are written (R192, R194). -/
def segmentAddresses (img : List Byte) : List Word :=
  (selectedSegments img).flatMap fun k => addrRange (segmentVaddr img k) (segmentFilesz img k)

/-- The byte the last segment that covers `x` puts there (R192, R194), where one does. -/
def loadedByte (img : List Byte) (x : Word) : List Nat → Option Byte
  | [] => none
  | k :: t =>
    match loadedByte img x t with
    | some b => some b
    | none =>
      if (x - segmentVaddr img k).toNat < segmentFilesz img k then
        some (img.getD (segmentOffset img k + (x - segmentVaddr img k).toNat) 0)
      else none

/-- The checks of R184 to R190 in the order of R183, the first that fails. -/
def firstFailedCheck (img : List Byte) : Option LoaderError :=
  if img.length < 64 then some .truncatedHeader
  else if img.getD 0 0 ≠ 0x7F ∨ img.getD 1 0 ≠ 0x45 ∨ img.getD 2 0 ≠ 0x4C ∨ img.getD 3 0 ≠ 0x46 then some .badMagic
  else if img.getD 4 0 ≠ 2 then some .badClass
  else if img.getD 5 0 ≠ 1 then some .badData
  else if imageField img 0x12 2 ≠ 243 then some .badMachine
  else if 0 < imageField img 0x38 2 ∧
      (imageField img 0x36 2 ≠ 56 ∨ img.length < imageField img 0x20 8 + imageField img 0x38 2 * 56) then
    some .malformedPhdrTable
  else if (selectedSegments img).any fun k => decide (img.length < segmentOffset img k + segmentFilesz img k) then
    some .segmentRange
  else none

end Sys2Proof.Statements

open Sys2Proof Sys2Proof.Machine Sys2Proof.Statements

/-! ## Encoding and the port -/

/-- Decoding is the inverse of encoding (R83, R84, R85): every command the port can express is decoded back from its own
request, with every operand at every value; and a request decodes to a command exactly when the fields its format lists are
those of the command's request, the other fields being ignored. Rests on the spec's own decisions D17, D18, D29 and on this
model's choices, log 4, 10, 11. -/
def Obligations.DecodeInvertsEncode : Prop :=
  (∀ (c : Config) (i : Instr), i.wf c = true → decode (encode i) = .ok i) ∧
  (∀ (r : Request) (i : Instr),
    decode r = .ok i ↔ listedFields r = encode i ∧ ∀ a l b, i = .storeSeq a l b → b.length = l.toNat)

/-- Requests of each file of commands decode to their command (R84, R85): loads and stores, sequences, the loader, the backing
store, the pages, the loop, and the host's register commands. Rests on the spec's own decisions D17, D18 and on this model's
choice, log 4. -/
def Obligations.SampleWordsDecode : Prop :=
  decode { op := 0b00000011, a := 0x1FFE } = .ok (.loadFour 0x1FFE) ∧
  decode { op := 0b00001000, a := 0x1FFD, d := 0x0807060504030201 } = .ok (.storeEight 0x1FFD 0x0807060504030201) ∧
  decode { op := 0b00001010, a := 0x1008, l := 2, b := [0xAA, 0xAB] } = .ok (.storeSeq 0x1008 2 [0xAA, 0xAB]) ∧
  decode { op := 0b00001100, i := .image [0x7F, 0x45] } = .ok (.loadElf (.image [0x7F, 0x45])) ∧
  decode { op := 0b00010000, p := 5, o := 0x10, f := true } = .ok (.bsGetAddress 5 0x10 true) ∧
  decode { op := 0b00011001, p := 1, v := 0x1000 } = .ok (.pgSetFp 1 0x1000) ∧
  decode { op := 0b00100001, m := 2, x := true } = .ok (.runToCompletion 2 true) ∧
  decode { op := 0b00100010, d := 0x10000 } = .ok (.setPc 0x10000) ∧
  decode { op := 0b00100011 } = .ok .getPc ∧
  decode { op := 0b00100100 } = .ok .getCount

/-- A request is an illegal command exactly when its code is none of R85 (R92), and the rejection names the code. Rests on the
spec's own decision D18. -/
def Obligations.OtherCodesAreIllegal : Prop :=
  ∀ r : Request,
    (r.op ∉ tableCodes → decode r = .error (.illegalCommand r.op)) ∧
    (∀ op, decode r = .error (.illegalCommand op) → r.op ∉ tableCodes ∧ op = r.op)

/-- A step runs the decoded command: with no run in progress, the first request of the port is taken and its command's meaning
is what the step does. Rests on the spec's own decision D18 and on this model's choice, log 4. -/
def Obligations.StepRunsDecodedCommand : Prop :=
  ∀ (s : State) (r : Request) (rest : List Request) (i : Instr),
    s.run = none → s.requests = r :: rest → decode r = .ok i → step s = exec i { s with requests := rest }

/-- An illegal code answers ILLEGAL_COMMAND and changes no state (R92, R251). The model's choice to answer by a next state is
log 6. Rests on the spec's own decision D18 and on this model's choice, log 6. -/
def Obligations.IllegalCommandAnswersAndChangesNothing : Prop :=
  ∀ (s : State) (r : Request) (rest : List Request),
    s.fatal = none → s.run = none → s.requests = r :: rest → r.op ∉ tableCodes →
      step s = .next { s with requests := rest, response := some { st := .illegalCommand } }

/-- While `fatal` is set every command, legal or illegal, answers FATAL with the recorded cause and changes no state (R245,
R252). Rests on the spec's own decision D6 and on this model's choices, log 6, 7. -/
def Obligations.FatalAnswersEveryCommand : Prop :=
  ∀ (s : State) (f : FatalRecord), s.fatal = some f →
    (∀ i, exec i s = .next { s with response := some { st := .fatal, e := some f.cause.code } }) ∧
    (∀ r rest, s.run = none → s.requests = r :: rest →
      step s = .next { s with requests := rest, response := some { st := .fatal, e := some f.cause.code } })

/-- One command at a time (R12, R82): while a run is in progress no step takes a request, and with no request and no run the
block holds all its state (R262; the idle step is log 15). Rests on the spec's own decision D30 and on this model's choices, log
5, 15. -/
def Obligations.OneCommandAtATime : Prop :=
  (∀ s t : State, s.run.isSome = true → step s = .next t → t.requests = s.requests) ∧
  (∀ s : State, s.run = none → s.requests = [] → step s = .next s)

/-! ## Addresses and byte order -/

/-- The page id is the high bits of an address and the offset its low OFFSET_BITS bits (R50, R80), `join` is the inverse of
`split` (R51), and every page id and offset in range come back from their join. Rests on the spec's own decision D1. -/
def Obligations.SplitAndJoinAreInverse : Prop :=
  ∀ c : Config,
    (∀ a : Word, pageIdOf c a = (a >>> c.offsetBits).toNat ∧
      offsetOf c a = (a &&& BitVec.ofNat 64 (2 ^ c.offsetBits - 1)).toNat ∧
      joinAddr c (pageIdOf c a) (offsetOf c a) = a) ∧
    (∀ pid off, pid < c.pageCount → off < c.pageSize →
      pageIdOf c (joinAddr c pid off) = pid ∧ offsetOf c (joinAddr c pid off) = off)

/-- Data is little-endian (R56), at any alignment and across pages: an N-byte store that completes puts byte `i` of its operand
at address `a + i`, and an N-byte load whose bytes are readable answers the sum of its bytes times `2^(8i)`. -/
def Obligations.DataIsLittleEndian : Prop :=
  ∀ (s : State) (w : Width) (a : Word), w ≠ .byte → s.fatal = none →
    (∀ (d : Word) (t : State), exec (storeInstr w a d) s = .next t → t.fatal = none →
      ∀ i < Width.bytes w, t.byteAt (addrAdd a i) = some (byteOf d i)) ∧
    (∀ f : Nat → Byte, (∀ i < Width.bytes w, exec (.loadByte (addrAdd a i)) s =
        .next (answered s { st := .ok, r := some ((f i).setWidth 64) })) →
      exec (loadInstr w a) s =
        .next (answered s { st := .ok, r := some (BitVec.ofNat 64 (byteSum f (Width.bytes w))) }))

/-! ## Loads -/

/-- LOAD_BYTE (R141): op 0x01 with operand A; it answers the byte, zero-extended, and changes nothing else; a byte of a page
just committed reads 0; where the page is not committed it takes the fatal PAGE_FAULT with address A and intent READ. Rests on
the spec's own decisions D2, D5, D6, D18, D26 and on this model's choices, log 7, 10. -/
def Obligations.LoadByteAnswersOrFaults : Prop :=
  (∀ r : Request, r.op = 0x01 → decode r = .ok (.loadByte r.a)) ∧
  ∀ (s : State) (a : Word), s.fatal = none →
    (∀ b, s.byteAt a = some b → exec (.loadByte a) s = .next (answered s { st := .ok, r := some (b.setWidth 64) })) ∧
    (s.byteAt a = none → exec (.loadByte a) s = .next (fatalState s ⟨.pageFault, a, .read⟩)) ∧
    (∀ (p o : Word) (t : State), isCommitted s.pages (pageIdOperand s.cfg p) = false →
      pageIdOf s.cfg a = pageIdOperand s.cfg p → exec (.bsGetAddress p o true) s = .next t → t.fatal = none →
      o.toNat < s.cfg.pageSize → exec (.loadByte a) t = .next (answered t { st := .ok, r := some 0 }))

/-- LOAD_TWO, LOAD_FOUR, LOAD_EIGHT (and LOAD_BYTE) of committed bytes complete at every address, aligned or not, in one page or
across pages, and answer the little-endian value zero-extended; nothing else changes (R143 to R147, R87, R60, R64). The order of
the halves and the wrap are the spec's D3, D4. Rests on the spec's own decisions D3, D4, D27. -/
def Obligations.LoadOfCommittedBytesCompletes : Prop :=
  ∀ (s : State) (w : Width) (a : Word) (f : Nat → Byte), s.fatal = none →
    (∀ i < Width.bytes w, s.byteAt (addrAdd a i) = some (f i)) →
      exec (loadInstr w a) s =
        .next (answered s { st := .ok, r := some (BitVec.ofNat 64 (byteSum f (Width.bytes w))) })

/-- A load faults at the first of its addresses, ascending, whose page is not committed (R145, R242; D4). Rests on the spec's
own decisions D4, D5, D6 and on this model's choice, log 7. -/
def Obligations.LoadFaultsAtFirstUncommittedByte : Prop :=
  ∀ (s : State) (w : Width) (a : Word) (j : Nat), s.fatal = none → j < Width.bytes w →
    (∀ i < j, Committed s (addrAdd a i)) → ¬ Committed s (addrAdd a j) →
      exec (loadInstr w a) s = .next (fatalState s ⟨.pageFault, addrAdd a j, .read⟩)

/-- LOAD_SEQ (R155): op 0x09 with operands A and L; it answers the L bytes, ascending, and changes nothing else; the first
address whose page is not committed raises the fatal PAGE_FAULT; L = 0 answers the empty sequence and reads no page. Rests on
the spec's own decisions D3, D5, D6, D18 and on this model's choice, log 7. -/
def Obligations.LoadSeqAnswersOrFaults : Prop :=
  (∀ r : Request, r.op = 0x09 → decode r = .ok (.loadSeq r.a r.l)) ∧
  ∀ (s : State) (a l : Word), s.fatal = none →
    (∀ f : Nat → Byte, (∀ i < l.toNat, s.byteAt (addrAdd a i) = some (f i)) →
      exec (.loadSeq a l) s = .next (answered s { st := .ok, q := some ((List.range l.toNat).map f) })) ∧
    (∀ j < l.toNat, (∀ i < j, Committed s (addrAdd a i)) → ¬ Committed s (addrAdd a j) →
      exec (.loadSeq a l) s = .next (fatalState s ⟨.pageFault, addrAdd a j, .read⟩)) ∧
    (l = 0 → exec (.loadSeq a l) s = .next (answered s { st := .ok, q := some [] }))

/-! ## Stores -/

/-- STORE_BYTE, STORE_TWO, STORE_FOUR, STORE_EIGHT with room under the ceiling complete (R142, R148 to R152): the bytes stored
to are the N addresses from A on; each holds its byte of D, the bits of D above 8N being ignored (R86); every other byte of
memory reads as before (0 in a page the store committed); no free pointer moves (R64); nothing else changes but the answer.
Rests on the spec's own decisions D2, D3, D4, D27. -/
def Obligations.StoreWritesExactlyItsBytes : Prop :=
  ∀ (s : State) (w : Width) (a d : Word), s.fatal = none → RoomFor s (addrRange a (Width.bytes w)) →
    ∃ m : Memory, exec (storeInstr w a d) s = .next { s with pages := m, response := some { st := .ok } } ∧
      (∀ x, memView s.cfg m x =
        if (x - a).toNat < Width.bytes w then some (byteOf d (x - a).toNat)
        else unstored s (addrRange a (Width.bytes w)) x) ∧
      (∀ p, State.freePointerOf { s with pages := m } p = freePointerKept s (addrRange a (Width.bytes w)) p)

/-- A store with no room faults at the first of its addresses, ascending, whose page cannot be committed (R142, R150, R242; D2,
D4), in every state that meets the invariant. Rests on the spec's own decisions D2, D4, D5, D6 and on this model's choice, log
7. -/
def Obligations.StoreFaultsAtFirstByteWithNoRoom : Prop :=
  ∀ (s : State) (w : Width) (a d : Word) (j : Nat), Inv s → s.fatal = none → j < Width.bytes w →
    RoomFor s (addrRange a j) → ¬ RoomFor s (addrRange a (j + 1)) →
      exec (storeInstr w a d) s = .next (fatalState s ⟨.capacityExhausted, addrAdd a j, .write⟩)

/-- Fast and slow path agree with single bytes (R159, R59), in the result, the pages committed and the fault taken: an N-byte
store is its N byte stores, ascending, and an N-byte load the little-endian value of its N byte loads. Rests on the spec's own
decisions D3, D4. -/
def Obligations.WideAccessEqualsByteAccesses : Prop :=
  ∀ (c : Config) (m : Memory) (w : Width) (a : Word),
    (∀ d : Word, storeWidth c m w a d = storeBytes c m a ((List.range (Width.bytes w)).map (byteOf d))) ∧
    loadWidth c m w a = (loadBytes c m a (Width.bytes w)).map fun bs => byteSum (fun i => bs.getD i 0) (Width.bytes w)

/-- A store that completes, then the load of the same width at the same address, gives back the value stored (R159). Rests on
the spec's own decisions D3, D4. -/
def Obligations.StoreThenLoadReturnsTheValue : Prop :=
  ∀ (s t : State) (w : Width) (a d : Word), s.fatal = none → exec (storeInstr w a d) s = .next t → t.fatal = none →
    exec (loadInstr w a) t =
      .next (answered t { st := .ok, r := some (BitVec.ofNat 64 (d.toNat % 2 ^ (8 * Width.bytes w))) })

/-- A store is seen by the next fetch of its address with nothing in between (R69, R277). Rests on the spec's own decision D9. -/
def Obligations.FetchSeesTheStore : Prop :=
  ∀ (s t : State) (v : Word), s.fatal = none → exec (.storeFour s.pc v) s = .next t → t.fatal = none →
    fetchWord t = .ok (v.setWidth 32)

/-! ## Sequences, occupancy and the bump allocator -/

/-- STORE_SEQ with room under the ceiling completes (R154): the L addresses from A on hold B; every other byte of memory reads
as before (0 in a page the store committed); nothing else changes but free pointers and the answer. Rests on the spec's own
decisions D2, D3. -/
def Obligations.StoreSeqWritesExactlyItsBytes : Prop :=
  ∀ (s : State) (a l : Word) (b : List Byte), s.fatal = none → b.length = l.toNat → RoomFor s (addrRange a l.toNat) →
    ∃ m : Memory, exec (.storeSeq a l b) s = .next { s with pages := m, response := some { st := .ok } } ∧
      ∀ x, memView s.cfg m x =
        if (x - a).toNat < l.toNat then b[(x - a).toNat]? else unstored s (addrRange a l.toNat) x

/-- STORE_SEQ with no room faults at the first byte whose page cannot be committed (R154, R242; D2), in every state that meets
the invariant. Rests on the spec's own decisions D2, D4, D5, D6 and on this model's choice, log 7. -/
def Obligations.StoreSeqFaultsAtFirstByteWithNoRoom : Prop :=
  ∀ (s : State) (a l : Word) (b : List Byte) (j : Nat), Inv s → s.fatal = none → b.length = l.toNat → j < l.toNat →
    RoomFor s (addrRange a j) → ¬ RoomFor s (addrRange a (j + 1)) →
      exec (.storeSeq a l b) s = .next (fatalState s ⟨.capacityExhausted, addrAdd a j, .write⟩)

/-- Occupancy (R153, R157): after a STORE_SEQ that completes, the free pointer of every page is its old value (0 in a page the
store committed) pushed up to one past the last byte stored in that page, gaps filled. So it covers every byte stored and never
decreases. Rests on the spec's own decision D7. -/
def Obligations.StoreSeqRaisesFreePointersToItsEnd : Prop :=
  ∀ (s t : State) (a l : Word) (b : List Byte), Inv s → s.fatal = none → b.length = l.toNat →
    exec (.storeSeq a l b) s = .next t → t.fatal = none →
      ∀ p, t.freePointerOf p =
        match s.freePointerOf p with
        | some f => some (highWater s.cfg p f (addrRange a l.toNat))
        | none => if touches s.cfg (addrRange a l.toNat) p then some (highWater s.cfg p 0 (addrRange a l.toNat)) else none

/-- A STORE_SEQ that completes, then the LOAD_SEQ of the same range, gives back the sequence, across pages too (R159). Rests on
the spec's own decision D3. -/
def Obligations.StoreSeqThenLoadSeqReturnsIt : Prop :=
  ∀ (s t : State) (a l : Word) (b : List Byte), s.fatal = none → b.length = l.toNat →
    exec (.storeSeq a l b) s = .next t → t.fatal = none →
      exec (.loadSeq a l) t = .next (answered t { st := .ok, q := some b })

/-- Bump-allocator progress (R158): a NEXT_BLOCK answer followed by a STORE_SEQ of at least one byte at it, then NEXT_BLOCK
again, answers a greater address. Premise of the model's own, not in R158: the store does not pass the top of the address space,
where it would wrap to low pages (D3) and the law fails (NOTES.md). Rests on the spec's own decisions D3, D8. -/
def Obligations.NextBlockAnswersIncrease : Prop :=
  ∀ (s s₁ s₂ s₃ : State) (a l : Word) (b : List Byte), Inv s → s.fatal = none →
    exec .nextBlock s = .next s₁ → s₁.response = some { st := .ok, r := some a } →
    b.length = l.toNat → 0 < l.toNat → a.toNat + l.toNat ≤ 2 ^ 64 →
    exec (.storeSeq a l b) s₁ = .next s₂ → s₂.fatal = none →
    exec .nextBlock s₂ = .next s₃ → s₃.fatal = none →
      ∃ a', s₃.response = some { st := .ok, r := some a' } ∧ a.toNat < a'.toNat

/-- BS_NEXT_UNOCC and NEXT_BLOCK (R126, R156; D8), in every state that meets the invariant: the first committed page with room,
in ascending id order, gives its free pointer; if none has room, the page after the greatest committed one, 0 where none is
committed, and the fatal CAPACITY_EXHAUSTED at the last address where there is no such page. Rests on the spec's own decisions
D5, D6, D8 and on this model's choice, log 7. -/
def Obligations.NextUnoccupiedAnswers : Prop :=
  ∀ (s : State) (i : Instr), i = .bsNextUnocc ∨ i = .nextBlock → Inv s → s.fatal = none →
    (∀ p f, s.freePointerOf p = some f → f < s.cfg.pageSize →
      (∀ q g, q < p → s.freePointerOf q = some g → g = s.cfg.pageSize) →
        exec i s = .next (answered s { st := .ok, r := some (joinAddr s.cfg p f) })) ∧
    (s.pages = [] → exec i s = .next (answered s { st := .ok, r := some 0 })) ∧
    (∀ p, isCommitted s.pages p = true → (∀ q g, s.freePointerOf q = some g → q ≤ p ∧ g = s.cfg.pageSize) →
      exec i s = .next
        (if p + 1 = s.cfg.pageCount then fatalState s ⟨.capacityExhausted, 0xFFFFFFFFFFFFFFFF, .write⟩
         else answered s { st := .ok, r := some (joinAddr s.cfg (p + 1) 0) }))

/-! ## Page and backing-store commands -/

/-- PG_GET_FP and PG_OCCUPIED answer the free pointer and PG_FREE what is left of PAGE_SIZE (R111, R113, R114), by their codes,
and change nothing else; on a page that is not committed each takes the fatal PAGE_FAULT with address `join(P, 0)`. Rests on the
spec's own decisions D5, D6, D18 and on this model's choices, log 7, 10. -/
def Obligations.PageQueriesAnswerOrFault : Prop :=
  (∀ r : Request, (r.op = 0x18 → decode r = .ok (.pgGetFp r.p)) ∧ (r.op = 0x1A → decode r = .ok (.pgOccupied r.p)) ∧
    (r.op = 0x1B → decode r = .ok (.pgFree r.p))) ∧
  ∀ (s : State) (p : Word), s.fatal = none →
    (∀ f, s.freePointerOf (pageIdOperand s.cfg p) = some f →
      exec (.pgGetFp p) s = .next (answered s { st := .ok, r := some (BitVec.ofNat 64 f) }) ∧
      exec (.pgOccupied p) s = .next (answered s { st := .ok, r := some (BitVec.ofNat 64 f) }) ∧
      exec (.pgFree p) s = .next (answered s { st := .ok, r := some (BitVec.ofNat 64 (s.cfg.pageSize - f)) }) ∧
      (f ≤ s.cfg.pageSize → (BitVec.ofNat 64 f).toNat = f ∧
        (BitVec.ofNat 64 (s.cfg.pageSize - f)).toNat = s.cfg.pageSize - f)) ∧
    (s.freePointerOf (pageIdOperand s.cfg p) = none →
      ∀ i, i = .pgGetFp p ∨ i = .pgOccupied p ∨ i = .pgFree p →
        exec i s = .next (fatalState s ⟨.pageFault, joinAddr s.cfg (pageIdOperand s.cfg p) 0, .read⟩))

/-- PG_SET_FP (R112, R110; D23): a value above PAGE_SIZE is REFUSED and changes nothing, whether or not the page is committed; a
legal one sets the free pointer of the page named, up or down, and nothing else but the answer: no byte, no other page's
pointer; on a page that is not committed it takes the fatal PAGE_FAULT. Rests on the spec's own decisions D5, D6, D18, D23 and
on this model's choices, log 6, 7, 10. -/
def Obligations.PgSetFpSetsOnlyThatPointer : Prop :=
  ∀ (s : State) (p v : Word), s.fatal = none →
    (s.cfg.pageSize < v.toNat → exec (.pgSetFp p v) s = .next (answered s { st := .refused })) ∧
    (v.toNat ≤ s.cfg.pageSize → isCommitted s.pages (pageIdOperand s.cfg p) = true →
      ∃ m : Memory, exec (.pgSetFp p v) s = .next { s with pages := m, response := some { st := .ok } } ∧
        (∀ x, memView s.cfg m x = s.byteAt x) ∧
        (∀ q, State.freePointerOf { s with pages := m } q =
          if q = pageIdOperand s.cfg p then some v.toNat else s.freePointerOf q)) ∧
    (v.toNat ≤ s.cfg.pageSize → isCommitted s.pages (pageIdOperand s.cfg p) = false →
      exec (.pgSetFp p v) s =
        .next (fatalState s ⟨.pageFault, joinAddr s.cfg (pageIdOperand s.cfg p) 0, .read⟩))

/-- BS_GET_ADDRESS (R121, R128; D2, D26): an offset past the page is REFUSED; on a committed page it answers the handle and
changes nothing else; on a page that is not committed, without the allocate flag it takes the fatal PAGE_FAULT, and with it
commits the page zero-filled with free pointer 0 where one more page fits, else takes the fatal CAPACITY_EXHAUSTED. Rests on the
spec's own decisions D2, D5, D6, D26 and on this model's choices, log 6, 7, 10. -/
def Obligations.BsGetAddressResolvesAllocatesOrFaults : Prop :=
  ∀ (s : State) (p o : Word) (f : Bool), s.fatal = none →
    (s.cfg.pageSize ≤ o.toNat → exec (.bsGetAddress p o f) s = .next (answered s { st := .refused })) ∧
    (o.toNat < s.cfg.pageSize →
      (isCommitted s.pages (pageIdOperand s.cfg p) = true →
        exec (.bsGetAddress p o f) s =
          .next (answered s { st := .ok, r := some (joinAddr s.cfg (pageIdOperand s.cfg p) o.toNat) })) ∧
      (isCommitted s.pages (pageIdOperand s.cfg p) = false → f = false →
        exec (.bsGetAddress p o f) s =
          .next (fatalState s ⟨.pageFault, joinAddr s.cfg (pageIdOperand s.cfg p) o.toNat, .read⟩)) ∧
      (isCommitted s.pages (pageIdOperand s.cfg p) = false → f = true →
        s.cfg.capacity < (s.pages.length + 1) * s.cfg.pageSize →
          exec (.bsGetAddress p o f) s =
            .next (fatalState s ⟨.capacityExhausted, joinAddr s.cfg (pageIdOperand s.cfg p) o.toNat, .write⟩)) ∧
      (isCommitted s.pages (pageIdOperand s.cfg p) = false → f = true →
        (s.pages.length + 1) * s.cfg.pageSize ≤ s.cfg.capacity →
          ∃ m : Memory, exec (.bsGetAddress p o f) s =
              .next { s with
                pages := m
                response := some { st := .ok, r := some (joinAddr s.cfg (pageIdOperand s.cfg p) o.toNat) } } ∧
            m.length = s.pages.length + 1 ∧
            (∀ x, memView s.cfg m x =
              if pageIdOf s.cfg x = pageIdOperand s.cfg p then some 0 else s.byteAt x) ∧
            (∀ q, State.freePointerOf { s with pages := m } q =
              if q = pageIdOperand s.cfg p then some 0 else s.freePointerOf q)))

/-- BS_GET_PAGE (R123): on a committed page it answers the page's id and changes nothing else; else the fatal PAGE_FAULT with
address `join(P, 0)`; it never allocates. Rests on the spec's own decisions D5, D6 and on this model's choices, log 7, 10. -/
def Obligations.BsGetPageAnswersOrFaults : Prop :=
  ∀ (s : State) (p : Word), s.fatal = none →
    (isCommitted s.pages (pageIdOperand s.cfg p) = true → exec (.bsGetPage p) s =
      .next (answered s { st := .ok, r := some (BitVec.ofNat 64 (pageIdOperand s.cfg p)) })) ∧
    (isCommitted s.pages (pageIdOperand s.cfg p) = false → exec (.bsGetPage p) s =
      .next (fatalState s ⟨.pageFault, joinAddr s.cfg (pageIdOperand s.cfg p) 0, .read⟩))

/-- BS_FITS (R124): op 0x12 with operands O and S; it answers whether `O + S <= PAGE_SIZE`, in exact natural arithmetic, and
changes nothing else, whatever pages are committed. -/
def Obligations.BsFitsComparesExactly : Prop :=
  (∀ r : Request, r.op = 0x12 → decode r = .ok (.bsFits r.o r.s)) ∧
  ∀ (s : State) (o size : Word), s.fatal = none →
    exec (.bsFits o size) s =
      .next (answered s { st := .ok, r := some (if o.toNat + size.toNat ≤ s.cfg.pageSize then 1 else 0) })

/-! ## The loop -/

/-- SET_PC writes pc, to any value, and nothing else but the answer; GET_PC answers pc and GET_COUNT the count, and each changes
nothing else (R160 to R162). Rests on the spec's own decisions D12, D17. -/
def Obligations.HostRegisterCommands : Prop :=
  ∀ s : State, s.fatal = none →
    (∀ d, exec (.setPc d) s = .next { s with pc := d, response := some { st := .ok } }) ∧
    exec .getPc s = .next (answered s { st := .ok, r := some s.pc }) ∧
    exec .getCount s = .next (answered s { st := .ok, r := some s.icount })

/-- RUN_STEP at the sentinel answers HALTED with no fetch, no cycle and no count (R211, R216; D11). Rests on the spec's own
decision D11. -/
def Obligations.RunStepAtSentinelAnswersHalted : Prop :=
  ∀ s : State, s.fatal = none → s.pc = 0 → exec .runStep s = .next (answered s { st := .halted })

/-- RUN_STEP at a pc whose 4 bytes are committed performs exactly one cycle (R212, R214 to R216, R249; D9 to D12, D22): the
fetched word is handed to the kernel with pc, its state and memory; on Next the pages, the pc, the kernel's state and the count
are written back and the answer is STEPPED; on KernelFault only the memory effects stay and the answer is KERNEL_FAULT with its
code; a fatal fault of the kernel's accesses is taken. So for every kernel, and for the block's own. Rests on the spec's own
decisions D5, D6, D9, D10, D11, D12, D22 and on this model's choices, log 2, 7. -/
def Obligations.RunStepPerformsOneCycle : Prop :=
  ∀ (s : State) (f : Nat → Byte), s.fatal = none → s.pc ≠ 0 → (∀ i < 4, s.byteAt (addrAdd s.pc i) = some (f i)) →
    exec .runStep s =
      .next (afterCycle Config.kernel s (BitVec.ofNat 32 (byteSum f 4)) (fun t => answered t { st := .stepped })
        (fun k t => answered t { st := .kernelFault, e := some k })) ∧
    ∀ K : Kernel, runStepWith K s =
      .next (afterCycle K s (BitVec.ofNat 32 (byteSum f 4)) (fun t => answered t { st := .stepped })
        (fun k t => answered t { st := .kernelFault, e := some k }))

/-- A fetch whose word is not all committed takes the fatal PAGE_FAULT at the first uncommitted part (R212, R242), in a step and
in a run. Rests on the spec's own decisions D4, D5, D6, D9, D28 and on this model's choices, log 5, 7. -/
def Obligations.FetchFaultsAtFirstUncommittedByte : Prop :=
  ∀ (s : State) (j : Nat), s.fatal = none → s.pc ≠ 0 → j < 4 → (∀ i < j, Committed s (addrAdd s.pc i)) →
    ¬ Committed s (addrAdd s.pc j) →
      exec .runStep s = .next (fatalState s ⟨.pageFault, addrAdd s.pc j, .read⟩) ∧
      (s.run.isSome = true → step s = .next (fatalState s ⟨.pageFault, addrAdd s.pc j, .read⟩))

/-- The kernel's memory accesses run with the rules of the commands (R210, R213): in memory `s.pages`, a load or store the
kernel issues answers and leaves memory as the command does, and a fatal fault of it ends the execution with the command's
record. Rests on the spec's own decisions D10, D22 and on this model's choice, log 2. -/
def Obligations.KernelAccessesFollowTheCommands : Prop :=
  ∀ (s t : State), s.fatal = none →
    (∀ w a d k, exec (storeInstr w a d) s = .next t →
      runKernelProg s.cfg s.pages (.store w a d k) =
        match t.fatal with
        | some f => .error f
        | none => runKernelProg s.cfg t.pages k) ∧
    (∀ a l b k, b.length = l.toNat → exec (.storeSeq a l b) s = .next t →
      runKernelProg s.cfg s.pages (.storeSeq a b k) =
        match t.fatal with
        | some f => .error f
        | none => runKernelProg s.cfg t.pages k) ∧
    (∀ w a k, exec (loadInstr w a) s = .next t →
      (∀ f, t.fatal = some f → runKernelProg s.cfg s.pages (.load w a k) = .error f) ∧
      (∀ v, t.response = some { st := .ok, r := some v } →
        runKernelProg s.cfg s.pages (.load w a k) = runKernelProg s.cfg s.pages (k v))) ∧
    (∀ a l k, exec (.loadSeq a l) s = .next t →
      (∀ f, t.fatal = some f → runKernelProg s.cfg s.pages (.loadSeq a l k) = .error f) ∧
      (∀ q, t.response = some { st := .ok, q := some q } →
        runKernelProg s.cfg s.pages (.loadSeq a l k) = runKernelProg s.cfg s.pages (k q)))

/-- RUN_TO_COMPLETION by mode (R217, R220 to R222, R225; D12 to D14): Simple writes run_mode, clears the count and begins the
run, unanswered; Disabled writes run_mode, clears the count and answers OK with no cycle, with one report exactly when X is set;
BasicBlockCached answers UNIMPLEMENTED and code 3 REFUSED, changing nothing. That a Simple run goes on in later steps is log 5;
the draw counter is log 8. Rests on the spec's own decisions D12, D13, D14, D15, D18 and on this model's choices, log 5, 6, 8. -/
def Obligations.RunToCompletionByMode : Prop :=
  ∀ (s : State) (x : Bool), s.fatal = none →
    exec (.runToCompletion 0 x) s = .next { s with
      runMode := .simple
      icount := 0
      response := none
      run := some { measure := if x then some s.draws else none }
      draws := if x then s.draws + 1 else s.draws } ∧
    exec (.runToCompletion 2 x) s = .next { s with
      runMode := .disabled
      icount := 0
      response := some { st := .ok }
      run := none
      reports := s.reports ++ (if x then [reportOf 0 s.draws] else [])
      draws := if x then s.draws + 1 else s.draws } ∧
    exec (.runToCompletion 1 x) s = .next (answered s { st := .unimplemented }) ∧
    exec (.runToCompletion 3 x) s = .next (answered s { st := .refused })

/-- One pass of a Simple run (R215, R218, R223 to R225), as the next step of the block: at the sentinel the run ends with OK;
else one cycle, after which the run goes on; a kernel fault ends it with KERNEL_FAULT, a fatal fault with FATAL and no report;
an end with OK or KERNEL_FAULT adds the report exactly when the run is measured. Rests on the spec's own decisions D5, D6, D9,
D12, D14, D15, D22, D28 and on this model's choices, log 2, 5, 7, 8. -/
def Obligations.SimpleRunPass : Prop :=
  ∀ (s : State) (run : Run), s.fatal = none → s.run = some run →
    (s.pc = 0 → step s = .next { s with
      run := none
      reports := s.reports ++ (match run.measure with | some n => [reportOf s.icount n] | none => [])
      response := some { st := .ok } }) ∧
    (∀ f : Nat → Byte, s.pc ≠ 0 → (∀ i < 4, s.byteAt (addrAdd s.pc i) = some (f i)) →
      step s = .next (afterCycle Config.kernel s (BitVec.ofNat 32 (byteSum f 4)) id
        (fun k t => { t with
          run := none
          reports := t.reports ++ (match run.measure with | some n => [reportOf t.icount n] | none => [])
          response := some { st := .kernelFault, e := some k } })))

/-- A Simple run halts with the count of its instructions (R218, R219; D12): for every kernel, if `n` cycles complete and the
last leaves the sentinel, `n + 1` passes of the loop end the run with OK, pc 0 and the count advanced by `n`, and one report of
that count exactly when the run is measured; and so do `n + 1` steps of the block with its own kernel. Rests on the spec's own
decisions D12, D15 and on this model's choices, log 2, 5, 8. -/
def Obligations.SimpleRunHaltsWithItsCount : Prop :=
  (∀ (K : Kernel) (n : Nat) (s t : State) (run : Run), s.fatal = none → s.run = some run →
    cyclesComplete K n s = some t → t.pc = 0 →
      t.icount = s.icount + BitVec.ofNat 64 n ∧
      runPasses K (n + 1) s = .next { t with
        run := none
        reports := s.reports ++ (match run.measure with | some d => [reportOf (s.icount + BitVec.ofNat 64 n) d] | none => [])
        response := some { st := .ok } }) ∧
  (∀ (n : Nat) (s t : State) (run : Run), s.fatal = none → s.run = some run →
    cyclesComplete Config.kernel n s = some t → t.pc = 0 →
      Host.Core.run core (n + 1) s = .next { t with
        run := none
        reports := s.reports ++ (match run.measure with | some d => [reportOf (s.icount + BitVec.ofNat 64 n) d] | none => [])
        response := some { st := .ok } })

/-! ## The loader -/

/-- LOAD_ELF that fails a check, or whose file cannot be opened, answers LOADER_ERROR with the code and changes no state (R181,
R196, R247), and while the host has not answered the open there is no step (R181, R282; log 12). Rests on the spec's own
decisions D19, D29 and on this model's choices, log 6, 12. -/
def Obligations.LoaderErrorChangesNothing : Prop :=
  ∀ s : State, s.fatal = none →
    (∀ img e, checkImage img = some e →
      exec (.loadElf (.image img)) s = .next (answered s { st := .loaderError, e := some e.code })) ∧
    exec (.loadElf .cannotOpen) s = .next (answered s { st := .loaderError, e := some 0x10 }) ∧
    exec (.loadElf .pending) s = .fault .hostFilePending

/-- The loader's checks and their order (R183 to R190 with the layout of R95, R96; D19, D20), read byte by byte from the image.
Rests on the spec's own decisions D19, D20. -/
def Obligations.LoaderChecksInOrder : Prop :=
  ∀ img : List Byte, checkImage img = firstFailedCheck img

/-- LOAD_ELF of an image that passes its checks, with room under the ceiling, completes (R180, R191 to R195, R199): it answers
`e_entry`; every address a selected segment covers holds the image byte of the last segment that covers it; every other byte of
memory reads as before (0 in a page the load committed); nothing else changes but free pointers and the answer, the pc least of
all. Rests on the spec's own decisions D2, D3, D19, D21, D29. -/
def Obligations.LoadElfWritesItsSegments : Prop :=
  ∀ (s : State) (img : List Byte), s.fatal = none → checkImage img = none → RoomFor s (segmentAddresses img) →
    ∃ m : Memory, exec (.loadElf (.image img)) s = .next { s with
        pages := m
        response := some { st := .ok, r := some (BitVec.ofNat 64 (imageField img 0x18 8)) } } ∧
      ∀ x, memView s.cfg m x =
        match loadedByte img x (selectedSegments img) with
        | some b => some b
        | none => unstored s (segmentAddresses img) x

/-- A load with no room faults at the first of the segments' addresses, in the order they are written, whose page cannot be
committed (R197, R194, R242; D2), in every state that meets the invariant. Rests on the spec's own decisions D2, D4, D5, D6, D21
and on this model's choice, log 7. -/
def Obligations.LoadElfFaultsAtFirstByteWithNoRoom : Prop :=
  ∀ (s : State) (img : List Byte) (j : Nat) (x : Word), Inv s → s.fatal = none → checkImage img = none →
    (segmentAddresses img)[j]? = some x → RoomFor s ((segmentAddresses img).take j) →
    ¬ RoomFor s ((segmentAddresses img).take (j + 1)) →
      exec (.loadElf (.image img)) s = .next (fatalState s ⟨.capacityExhausted, x, .write⟩)

/-- A load raises free pointers as its segments' STORE_SEQ do (R193, R153): after a load that completes, the free pointer of
every page is its old value (0 in a page the load committed) pushed up to one past the last byte written in that page. Rests on
the spec's own decisions D7, D21. -/
def Obligations.LoadElfRaisesFreePointers : Prop :=
  ∀ (s t : State) (img : List Byte), Inv s → s.fatal = none → checkImage img = none →
    exec (.loadElf (.image img)) s = .next t → t.fatal = none →
      ∀ p, t.freePointerOf p =
        match s.freePointerOf p with
        | some f => some (highWater s.cfg p f (segmentAddresses img))
        | none => if touches s.cfg (segmentAddresses img) p then some (highWater s.cfg p 0 (segmentAddresses img)) else none

/-! ## Fatal faults -/

/-- Fatal entry (R241, R242): whatever the command, if it raises a fatal fault the state after it is the state before it with
the record latched, the backing store empty and the answer FATAL with the cause's code; pc, icount, run_mode and the kernel's
state are kept. Rests on the spec's own decisions D5, D6 and on this model's choices, log 5, 7. -/
def Obligations.FatalEntryIsTheSameForEveryCommand : Prop :=
  ∀ (i : Instr) (s t : State) (f : FatalRecord), s.fatal = none → exec i s = .next t → t.fatal = some f →
    t = fatalState s f

/-- Which command raises which cause (R240, R243): PAGE_FAULT always with READ intent and only by the commands of its row,
CAPACITY_EXHAUSTED always with WRITE intent and only by those of its row; RUN_STEP either, by its fetch and the kernel. The step
that takes a RUN_TO_COMPLETION raises none; its cycles are the later steps of the run (log 5), and a step of a run raises either
cause (R217, R223), PAGE_FAULT with READ and CAPACITY_EXHAUSTED with WRITE intent. Rests on the spec's own decisions D5, D8,
D18, D28 and on this model's choices, log 2, 5, 7. -/
def Obligations.CausesByCommand : Prop :=
  (∀ (i : Instr) (s t : State) (f : FatalRecord), s.fatal = none → exec i s = .next t → t.fatal = some f →
    (f.cause = .pageFault ∧ f.intent = .read ∧ mayPageFault i = true) ∨
    (f.cause = .capacityExhausted ∧ f.intent = .write ∧ mayExhaustCapacity i = true)) ∧
  (∀ (s t : State) (f : FatalRecord), s.fatal = none → s.run.isSome = true → step s = .next t → t.fatal = some f →
    (f.cause = .pageFault ∧ f.intent = .read) ∨ (f.cause = .capacityExhausted ∧ f.intent = .write))

/-- The fatal state is never left by a step, and no step changes anything in it but the port (R244, R245). Rests on the spec's
own decision D6 and on this model's choices, log 4, 7. -/
def Obligations.FatalStateIsNeverLeft : Prop :=
  ∀ (s t : State) (f : FatalRecord), s.fatal = some f → step s = .next t →
    t = { s with requests := t.requests, response := t.response }

/-! ## The whole machine -/

/-- The commands that only read change nothing but the answer, unless they raise a fatal fault (R64, R120, R140). Rests on this
model's choice, log 4. -/
def Obligations.ReadingCommandsChangeNothing : Prop :=
  ∀ (i : Instr) (s t : State), onlyReads i = true → s.fatal = none → exec i s = .next t → t.fatal = none →
    t = { s with response := t.response }

/-- Who writes what (R27 to R29, R39, R140, R195): only SET_PC and a cycle write pc; only a cycle and RUN_TO_COMPLETION the
count; only RUN_TO_COMPLETION the run mode, the reports and the draws; only a cycle the kernel's state; no command writes the
configuration or another request. Rests on the spec's own decisions D10, D12, D13, D14, D16, D17 and on this model's choices,
log 4, 5, 8. -/
def Obligations.RegistersHaveOnlyTheirWriters : Prop :=
  ∀ (i : Instr) (s t : State), exec i s = .next t →
    t.cfg = s.cfg ∧ t.requests = s.requests ∧
    (t.pc ≠ s.pc → i = .runStep ∨ ∃ d, i = .setPc d) ∧
    (t.icount ≠ s.icount → i = .runStep ∨ ∃ m x, i = .runToCompletion m x) ∧
    (t.runMode ≠ s.runMode → ∃ m x, i = .runToCompletion m x) ∧
    (t.kstate ≠ s.kstate → i = .runStep) ∧
    (t.reports ≠ s.reports → ∃ m x, i = .runToCompletion m x) ∧
    (t.draws ≠ s.draws → ∃ m x, i = .runToCompletion m x)

/-- Only STORE_SEQ, the loader that uses it, PG_SET_FP and the kernel (through STORE_SEQ) move the free pointer of a committed
page (R64, R193, R278): of the commands, those and RUN_STEP; of all steps, one that runs such a command, and one that performs a
cycle of a Simple run, whose kernel may issue STORE_SEQ (R210, R218; log 5). Rests on the spec's own decision D10 and on this
model's choices, log 2, 4, 5. -/
def Obligations.FreePointersHaveOnlyTheirWriters : Prop :=
  (∀ (i : Instr) (s t : State) (p f : Nat), exec i s = .next t → t.fatal = none → s.freePointerOf p = some f →
    t.freePointerOf p ≠ some f → MovesFreePointers i) ∧
  (∀ (s t : State) (p f : Nat), step s = .next t → t.fatal = none → s.freePointerOf p = some f →
    t.freePointerOf p ≠ some f →
      (s.run.isSome = true ∧ s.pc ≠ 0) ∨
      (s.run = none ∧ ∃ r rest i, s.requests = r :: rest ∧ decode r = .ok i ∧ MovesFreePointers i))

/-- A committed page stays committed through every step that does not end in the fatal state (R23, R122). Rests on this model's
choices, log 2, 4, 5. -/
def Obligations.CommittedPagesStay : Prop :=
  ∀ (s t : State) (p : Nat), step s = .next t → t.fatal = none → isCommitted s.pages p = true →
    isCommitted t.pages p = true

/-- Reset (R37, R270, R271; D16): the construction arguments and the host's kernel state are taken, no page is committed, pc and
the count are 0, the mode is Simple, no fault is recorded, and the port and the run are idle (log 4, log 5). Rests on the spec's
own decision D16 and on this model's choices, log 1, 3, 4, 5, 8. -/
def Obligations.ConstructionSetsTheResetValues : Prop :=
  ∀ (c : Config) (ks : KState),
    (State.construct c ks).cfg = c ∧ (State.construct c ks).kstate = ks ∧ (State.construct c ks).pages = [] ∧
    (State.construct c ks).pc = 0 ∧ (State.construct c ks).runMode = .simple ∧ (State.construct c ks).icount = 0 ∧
    (State.construct c ks).fatal = none ∧ (State.construct c ks).run = none ∧
    (State.construct c ks).requests = [] ∧ (State.construct c ks).response = none ∧
    (State.construct c ks).reports = [] ∧ State.reset = State.construct Config.exampleInstance []

/-- The invariant holds after every construction. Rests on the spec's own decisions D2, D16 and on this model's choice, log 5. -/
def Obligations.ConstructionMeetsTheInvariant : Prop := ∀ (c : Config) (ks : KState), Inv (State.construct c ks)

/-- Every step keeps the invariant (R20 to R22, R24, R241, R244): memory in its canonical form with page ids and free pointers
in range, committed memory under the ceiling, no memory and no run in the fatal state, only a Simple run in progress, run_mode
never BasicBlockCached; from every state that meets it. Rests on the spec's own decisions D2, D5, D6, D13 and on this model's
choices, log 2, 4, 5, 7, 13. -/
def Obligations.StepKeepsTheInvariant : Prop := ∀ s t : State, Inv s → step s = .next t → Inv t

/-- The codes of the response port (R88 to R91; D18). Rests on the spec's own decisions D18, D19. -/
def Obligations.ResponseCodes : Prop :=
  [Status.ok, .stepped, .halted, .unimplemented, .kernelFault, .fatal, .illegalCommand, .loaderError, .refused].map
      Status.code = [0x00, 0x01, 0x02, 0x03, 0x04, 0x05, 0x06, 0x07, 0x08] ∧
  [FatalCause.pageFault, .capacityExhausted].map FatalCause.code = [0x01, 0x02] ∧
  [LoaderError.openFailed, .truncatedHeader, .badMagic, .badClass, .badData, .badMachine, .malformedPhdrTable,
      .segmentRange].map LoaderError.code = [0x10, 0x11, 0x12, 0x13, 0x14, 0x15, 0x16, 0x17] ∧
  [RunMode.simple, .basicBlockCached, .disabled].map RunMode.code = [0, 1, 2] ∧
  (∀ m : BitVec 2, RunMode.ofCode m = none ↔ m = 3)
end

