-- ==== Sys2Proof/Laws/State.lean ====
section
/-! SUPPORT. One lemma per field of the state and per update of it, all by definition, so that no proof unfolds a record update. -/

namespace Sys2Proof.Machine

@[simp] theorem State.answer_cfg (s : State) (r : Response) : (s.answer r).cfg = s.cfg := rfl
@[simp] theorem State.answer_pages (s : State) (r : Response) : (s.answer r).pages = s.pages := rfl
@[simp] theorem State.answer_pc (s : State) (r : Response) : (s.answer r).pc = s.pc := rfl
@[simp] theorem State.answer_runMode (s : State) (r : Response) : (s.answer r).runMode = s.runMode := rfl
@[simp] theorem State.answer_icount (s : State) (r : Response) : (s.answer r).icount = s.icount := rfl
@[simp] theorem State.answer_fatal (s : State) (r : Response) : (s.answer r).fatal = s.fatal := rfl
@[simp] theorem State.answer_kstate (s : State) (r : Response) : (s.answer r).kstate = s.kstate := rfl
@[simp] theorem State.answer_requests (s : State) (r : Response) : (s.answer r).requests = s.requests := rfl
@[simp] theorem State.answer_response (s : State) (r : Response) : (s.answer r).response = some r := rfl
@[simp] theorem State.answer_reports (s : State) (r : Response) : (s.answer r).reports = s.reports := rfl
@[simp] theorem State.answer_run (s : State) (r : Response) : (s.answer r).run = s.run := rfl
@[simp] theorem State.answer_draws (s : State) (r : Response) : (s.answer r).draws = s.draws := rfl

@[simp] theorem State.withPages_cfg (s : State) (m : Memory) : (s.withPages m).cfg = s.cfg := rfl
@[simp] theorem State.withPages_pages (s : State) (m : Memory) : (s.withPages m).pages = m := rfl
@[simp] theorem State.withPages_pc (s : State) (m : Memory) : (s.withPages m).pc = s.pc := rfl
@[simp] theorem State.withPages_runMode (s : State) (m : Memory) : (s.withPages m).runMode = s.runMode := rfl
@[simp] theorem State.withPages_icount (s : State) (m : Memory) : (s.withPages m).icount = s.icount := rfl
@[simp] theorem State.withPages_fatal (s : State) (m : Memory) : (s.withPages m).fatal = s.fatal := rfl
@[simp] theorem State.withPages_kstate (s : State) (m : Memory) : (s.withPages m).kstate = s.kstate := rfl
@[simp] theorem State.withPages_requests (s : State) (m : Memory) : (s.withPages m).requests = s.requests := rfl
@[simp] theorem State.withPages_response (s : State) (m : Memory) : (s.withPages m).response = s.response := rfl
@[simp] theorem State.withPages_reports (s : State) (m : Memory) : (s.withPages m).reports = s.reports := rfl
@[simp] theorem State.withPages_run (s : State) (m : Memory) : (s.withPages m).run = s.run := rfl
@[simp] theorem State.withPages_draws (s : State) (m : Memory) : (s.withPages m).draws = s.draws := rfl

@[simp] theorem State.raiseFatal_cfg (s : State) (f : FatalRecord) : (s.raiseFatal f).cfg = s.cfg := rfl
@[simp] theorem State.raiseFatal_pages (s : State) (f : FatalRecord) : (s.raiseFatal f).pages = [] := rfl
@[simp] theorem State.raiseFatal_pc (s : State) (f : FatalRecord) : (s.raiseFatal f).pc = s.pc := rfl
@[simp] theorem State.raiseFatal_runMode (s : State) (f : FatalRecord) : (s.raiseFatal f).runMode = s.runMode := rfl
@[simp] theorem State.raiseFatal_icount (s : State) (f : FatalRecord) : (s.raiseFatal f).icount = s.icount := rfl
@[simp] theorem State.raiseFatal_fatal (s : State) (f : FatalRecord) : (s.raiseFatal f).fatal = some f := rfl
@[simp] theorem State.raiseFatal_kstate (s : State) (f : FatalRecord) : (s.raiseFatal f).kstate = s.kstate := rfl
@[simp] theorem State.raiseFatal_requests (s : State) (f : FatalRecord) : (s.raiseFatal f).requests = s.requests := rfl
@[simp] theorem State.raiseFatal_response (s : State) (f : FatalRecord) : (s.raiseFatal f).response = some (fatalResponse f) := rfl
@[simp] theorem State.raiseFatal_reports (s : State) (f : FatalRecord) : (s.raiseFatal f).reports = s.reports := rfl
@[simp] theorem State.raiseFatal_run (s : State) (f : FatalRecord) : (s.raiseFatal f).run = none := rfl
@[simp] theorem State.raiseFatal_draws (s : State) (f : FatalRecord) : (s.raiseFatal f).draws = s.draws := rfl

@[simp] theorem State.writeBack_cfg (s : State) (m : Memory) (p : Word) (ks : KState) : (s.writeBack m p ks).cfg = s.cfg := rfl
@[simp] theorem State.writeBack_pages (s : State) (m : Memory) (p : Word) (ks : KState) : (s.writeBack m p ks).pages = m := rfl
@[simp] theorem State.writeBack_pc (s : State) (m : Memory) (p : Word) (ks : KState) : (s.writeBack m p ks).pc = p := rfl
@[simp] theorem State.writeBack_runMode (s : State) (m : Memory) (p : Word) (ks : KState) : (s.writeBack m p ks).runMode = s.runMode := rfl
@[simp] theorem State.writeBack_icount (s : State) (m : Memory) (p : Word) (ks : KState) : (s.writeBack m p ks).icount = s.icount + 1 := rfl
@[simp] theorem State.writeBack_fatal (s : State) (m : Memory) (p : Word) (ks : KState) : (s.writeBack m p ks).fatal = s.fatal := rfl
@[simp] theorem State.writeBack_kstate (s : State) (m : Memory) (p : Word) (ks : KState) : (s.writeBack m p ks).kstate = ks := rfl
@[simp] theorem State.writeBack_requests (s : State) (m : Memory) (p : Word) (ks : KState) : (s.writeBack m p ks).requests = s.requests := rfl
@[simp] theorem State.writeBack_response (s : State) (m : Memory) (p : Word) (ks : KState) : (s.writeBack m p ks).response = s.response := rfl
@[simp] theorem State.writeBack_reports (s : State) (m : Memory) (p : Word) (ks : KState) : (s.writeBack m p ks).reports = s.reports := rfl
@[simp] theorem State.writeBack_run (s : State) (m : Memory) (p : Word) (ks : KState) : (s.writeBack m p ks).run = s.run := rfl
@[simp] theorem State.writeBack_draws (s : State) (m : Memory) (p : Word) (ks : KState) : (s.writeBack m p ks).draws = s.draws := rfl

@[simp] theorem State.endRun_cfg (s : State) (run : Run) (r : Response) : (s.endRun run r).cfg = s.cfg := rfl
@[simp] theorem State.endRun_pages (s : State) (run : Run) (r : Response) : (s.endRun run r).pages = s.pages := rfl
@[simp] theorem State.endRun_pc (s : State) (run : Run) (r : Response) : (s.endRun run r).pc = s.pc := rfl
@[simp] theorem State.endRun_runMode (s : State) (run : Run) (r : Response) : (s.endRun run r).runMode = s.runMode := rfl
@[simp] theorem State.endRun_icount (s : State) (run : Run) (r : Response) : (s.endRun run r).icount = s.icount := rfl
@[simp] theorem State.endRun_fatal (s : State) (run : Run) (r : Response) : (s.endRun run r).fatal = s.fatal := rfl
@[simp] theorem State.endRun_kstate (s : State) (run : Run) (r : Response) : (s.endRun run r).kstate = s.kstate := rfl
@[simp] theorem State.endRun_requests (s : State) (run : Run) (r : Response) : (s.endRun run r).requests = s.requests := rfl
@[simp] theorem State.endRun_response (s : State) (run : Run) (r : Response) : (s.endRun run r).response = some r := rfl
@[simp] theorem State.endRun_reports (s : State) (run : Run) (r : Response) : (s.endRun run r).reports = s.reports ++ run.reports s.icount := rfl
@[simp] theorem State.endRun_run (s : State) (run : Run) (r : Response) : (s.endRun run r).run = none := rfl
@[simp] theorem State.endRun_draws (s : State) (run : Run) (r : Response) : (s.endRun run r).draws = s.draws := rfl

@[simp] theorem State.beginRun_cfg (s : State) (mode : RunMode) (x : Bool) : (s.beginRun mode x).cfg = s.cfg := rfl
@[simp] theorem State.beginRun_pages (s : State) (mode : RunMode) (x : Bool) : (s.beginRun mode x).pages = s.pages := rfl
@[simp] theorem State.beginRun_pc (s : State) (mode : RunMode) (x : Bool) : (s.beginRun mode x).pc = s.pc := rfl
@[simp] theorem State.beginRun_runMode (s : State) (mode : RunMode) (x : Bool) : (s.beginRun mode x).runMode = mode := rfl
@[simp] theorem State.beginRun_icount (s : State) (mode : RunMode) (x : Bool) : (s.beginRun mode x).icount = 0 := rfl
@[simp] theorem State.beginRun_fatal (s : State) (mode : RunMode) (x : Bool) : (s.beginRun mode x).fatal = s.fatal := rfl
@[simp] theorem State.beginRun_kstate (s : State) (mode : RunMode) (x : Bool) : (s.beginRun mode x).kstate = s.kstate := rfl
@[simp] theorem State.beginRun_requests (s : State) (mode : RunMode) (x : Bool) : (s.beginRun mode x).requests = s.requests := rfl
@[simp] theorem State.beginRun_response (s : State) (mode : RunMode) (x : Bool) : (s.beginRun mode x).response = none := rfl
@[simp] theorem State.beginRun_reports (s : State) (mode : RunMode) (x : Bool) : (s.beginRun mode x).reports = s.reports := rfl
@[simp] theorem State.beginRun_run (s : State) (mode : RunMode) (x : Bool) : (s.beginRun mode x).run = some { measure := if x then some s.draws else none } := rfl
@[simp] theorem State.beginRun_draws (s : State) (mode : RunMode) (x : Bool) : (s.beginRun mode x).draws = if x then s.draws + 1 else s.draws := rfl

@[simp] theorem State.supplyKernelState_cfg (s : State) (ks : KState) : (s.supplyKernelState ks).cfg = s.cfg := rfl
@[simp] theorem State.supplyKernelState_pages (s : State) (ks : KState) : (s.supplyKernelState ks).pages = s.pages := rfl
@[simp] theorem State.supplyKernelState_pc (s : State) (ks : KState) : (s.supplyKernelState ks).pc = s.pc := rfl
@[simp] theorem State.supplyKernelState_runMode (s : State) (ks : KState) : (s.supplyKernelState ks).runMode = s.runMode := rfl
@[simp] theorem State.supplyKernelState_icount (s : State) (ks : KState) : (s.supplyKernelState ks).icount = s.icount := rfl
@[simp] theorem State.supplyKernelState_fatal (s : State) (ks : KState) : (s.supplyKernelState ks).fatal = s.fatal := rfl
@[simp] theorem State.supplyKernelState_kstate (s : State) (ks : KState) : (s.supplyKernelState ks).kstate = ks := rfl
@[simp] theorem State.supplyKernelState_requests (s : State) (ks : KState) : (s.supplyKernelState ks).requests = s.requests := rfl
@[simp] theorem State.supplyKernelState_response (s : State) (ks : KState) : (s.supplyKernelState ks).response = s.response := rfl
@[simp] theorem State.supplyKernelState_reports (s : State) (ks : KState) : (s.supplyKernelState ks).reports = s.reports := rfl
@[simp] theorem State.supplyKernelState_run (s : State) (ks : KState) : (s.supplyKernelState ks).run = s.run := rfl
@[simp] theorem State.supplyKernelState_draws (s : State) (ks : KState) : (s.supplyKernelState ks).draws = s.draws := rfl

@[simp] theorem State.submit_cfg (s : State) (r : Request) : (s.submit r).cfg = s.cfg := rfl
@[simp] theorem State.submit_pages (s : State) (r : Request) : (s.submit r).pages = s.pages := rfl
@[simp] theorem State.submit_pc (s : State) (r : Request) : (s.submit r).pc = s.pc := rfl
@[simp] theorem State.submit_runMode (s : State) (r : Request) : (s.submit r).runMode = s.runMode := rfl
@[simp] theorem State.submit_icount (s : State) (r : Request) : (s.submit r).icount = s.icount := rfl
@[simp] theorem State.submit_fatal (s : State) (r : Request) : (s.submit r).fatal = s.fatal := rfl
@[simp] theorem State.submit_kstate (s : State) (r : Request) : (s.submit r).kstate = s.kstate := rfl
@[simp] theorem State.submit_requests (s : State) (r : Request) : (s.submit r).requests = s.requests ++ [r] := rfl
@[simp] theorem State.submit_response (s : State) (r : Request) : (s.submit r).response = s.response := rfl
@[simp] theorem State.submit_reports (s : State) (r : Request) : (s.submit r).reports = s.reports := rfl
@[simp] theorem State.submit_run (s : State) (r : Request) : (s.submit r).run = s.run := rfl
@[simp] theorem State.submit_draws (s : State) (r : Request) : (s.submit r).draws = s.draws := rfl

@[simp] theorem State.construct_cfg (c : Config) (ks : KState) : (State.construct c ks).cfg = c := rfl
@[simp] theorem State.construct_pages (c : Config) (ks : KState) : (State.construct c ks).pages = [] := rfl
@[simp] theorem State.construct_pc (c : Config) (ks : KState) : (State.construct c ks).pc = 0 := rfl
@[simp] theorem State.construct_runMode (c : Config) (ks : KState) : (State.construct c ks).runMode = .simple := rfl
@[simp] theorem State.construct_icount (c : Config) (ks : KState) : (State.construct c ks).icount = 0 := rfl
@[simp] theorem State.construct_fatal (c : Config) (ks : KState) : (State.construct c ks).fatal = none := rfl
@[simp] theorem State.construct_kstate (c : Config) (ks : KState) : (State.construct c ks).kstate = ks := rfl
@[simp] theorem State.construct_requests (c : Config) (ks : KState) : (State.construct c ks).requests = [] := rfl
@[simp] theorem State.construct_response (c : Config) (ks : KState) : (State.construct c ks).response = none := rfl
@[simp] theorem State.construct_reports (c : Config) (ks : KState) : (State.construct c ks).reports = [] := rfl
@[simp] theorem State.construct_run (c : Config) (ks : KState) : (State.construct c ks).run = none := rfl
@[simp] theorem State.construct_draws (c : Config) (ks : KState) : (State.construct c ks).draws = 0 := rfl

end Sys2Proof.Machine
end

