-- ==== Sys2Proof/Laws/Memory.lean ====
section
/-! SUPPORT. The laws of cells and pages: a read after a write, the canonical form, and the number of committed pages. -/

namespace Sys2Proof.Machine

/-! ## Cells -/

theorem cellGet_cellErase_same (d : List Host.Cell) (k : Nat) : cellGet (cellErase k d) k = unlistedByte := by
  induction d with
  | nil => rfl
  | cons c t ih =>
    obtain ⟨k', v⟩ := c
    simp only [cellErase]
    split
    · exact ih
    · rename_i h
      simp [cellGet, h, ih]

theorem cellGet_cellErase_other {k j : Nat} (h : j ≠ k) (d : List Host.Cell) :
    cellGet (cellErase k d) j = cellGet d j := by
  induction d with
  | nil => rfl
  | cons c t ih =>
    obtain ⟨k', v⟩ := c
    simp only [cellErase, cellGet]
    split
    · rename_i hk
      subst hk
      simp [ih, Ne.symm h]
    · simp [cellGet, ih]

theorem cellGet_cellInsert_other {k j : Nat} (h : j ≠ k) (v : Byte) (d : List Host.Cell) :
    cellGet (cellInsert k v d) j = cellGet d j := by
  induction d with
  | nil => simp [cellInsert, cellGet, Ne.symm h]
  | cons c t ih =>
    obtain ⟨k', v'⟩ := c
    simp only [cellInsert]
    split <;> simp [cellGet, ih, Ne.symm h]

/-- No cell of offset `k`. -/
def cellAbsent (k : Nat) (d : List Host.Cell) : Prop := ∀ c ∈ d, c.1 ≠ k

theorem cellAbsent_cellErase (k : Nat) (d : List Host.Cell) : cellAbsent k (cellErase k d) := by
  induction d with
  | nil => simp [cellAbsent, cellErase]
  | cons c t ih =>
    obtain ⟨k', v⟩ := c
    simp only [cellErase]
    split
    · exact ih
    · rename_i h
      intro c hc
      rcases List.mem_cons.1 hc with rfl | hc
      · exact h
      · exact ih c hc

theorem cellGet_cellInsert_same {k : Nat} {d : List Host.Cell} (h : cellAbsent k d) (v : Byte) :
    cellGet (cellInsert k v d) k = v := by
  induction d with
  | nil => simp [cellInsert, cellGet]
  | cons c t ih =>
    obtain ⟨k', v'⟩ := c
    have hk : k' ≠ k := h (k', v') (by simp)
    simp only [cellInsert]
    split
    · simp [cellGet]
    · simp [cellGet, hk, ih fun c hc => h c (by simp [hc])]

/-- A read after a write gives the value written; a write leaves every other offset alone. -/
theorem cellGet_cellSet (d : List Host.Cell) (k j : Nat) (v : Byte) :
    cellGet (cellSet d k v) j = if j = k then v else cellGet d j := by
  unfold cellSet
  by_cases hj : j = k
  · subst hj
    split
    · rename_i h; simp [cellGet_cellErase_same, h]
    · simp [cellGet_cellInsert_same (cellAbsent_cellErase _ _)]
  · rw [if_neg hj]
    split <;> simp [cellGet_cellErase_other hj, cellGet_cellInsert_other hj]

theorem cellsWf_mono {size lo lo' : Nat} (h : lo' ≤ lo) {d : List Host.Cell} (w : cellsWf size lo d = true) :
    cellsWf size lo' d = true := by
  cases d with
  | nil => rfl
  | cons c t =>
    obtain ⟨k, v⟩ := c
    simp only [cellsWf, Bool.and_eq_true, decide_eq_true_eq] at w ⊢
    exact ⟨⟨⟨by omega, w.1.1.2⟩, w.1.2⟩, w.2⟩

theorem cellsWf_cellErase {size lo : Nat} (k : Nat) {d : List Host.Cell} (w : cellsWf size lo d = true) :
    cellsWf size lo (cellErase k d) = true := by
  induction d generalizing lo with
  | nil => rfl
  | cons c t ih =>
    obtain ⟨k', v⟩ := c
    simp only [cellsWf, Bool.and_eq_true, decide_eq_true_eq] at w
    simp only [cellErase]
    split
    · exact cellsWf_mono (by omega) (ih w.2)
    · simp only [cellsWf, Bool.and_eq_true, decide_eq_true_eq]
      exact ⟨w.1, ih w.2⟩

theorem cellsWf_cellInsert {size lo k : Nat} {v : Byte} (hk : lo ≤ k) (hs : k < size) (hv : v ≠ unlistedByte)
    {d : List Host.Cell} (w : cellsWf size lo d = true) (h : cellAbsent k d) :
    cellsWf size lo (cellInsert k v d) = true := by
  induction d generalizing lo with
  | nil => simp [cellInsert, cellsWf, hk, hs, hv]
  | cons c t ih =>
    obtain ⟨k', v'⟩ := c
    have hne : k' ≠ k := h (k', v') (by simp)
    simp only [cellsWf, Bool.and_eq_true, decide_eq_true_eq] at w
    simp only [cellInsert]
    split
    · simp only [cellsWf, Bool.and_eq_true, decide_eq_true_eq]
      exact ⟨⟨⟨hk, hs⟩, hv⟩, ⟨⟨⟨by omega, w.1.1.2⟩, w.1.2⟩, w.2⟩⟩
    · simp only [cellsWf, Bool.and_eq_true, decide_eq_true_eq]
      exact ⟨w.1, ih (by omega) w.2 fun c hc => h c (by simp [hc])⟩

/-- Writing a byte inside the page keeps the canonical form of its data. -/
theorem cellsWf_cellSet {size k : Nat} (hs : k < size) (v : Byte) {d : List Host.Cell} (w : cellsWf size 0 d = true) :
    cellsWf size 0 (cellSet d k v) = true := by
  unfold cellSet
  split
  · exact cellsWf_cellErase k w
  · rename_i hv
    exact cellsWf_cellInsert (Nat.zero_le _) hs hv (cellsWf_cellErase k w) (cellAbsent_cellErase _ _)

/-! ## One page -/

@[simp] theorem Page.setByte_id (pg : Page) (o : Nat) (v : Byte) : (pg.setByte o v).id = pg.id := rfl
@[simp] theorem Page.setByte_freePointer (pg : Page) (o : Nat) (v : Byte) :
    (pg.setByte o v).freePointer = pg.freePointer := rfl
@[simp] theorem Page.fresh_id (pid : Nat) : (Page.fresh pid).id = pid := rfl
@[simp] theorem Page.fresh_freePointer (pid : Nat) : (Page.fresh pid).freePointer = 0 := rfl
@[simp] theorem Page.fresh_byte (pid o : Nat) : (Page.fresh pid).byte o = 0 := rfl

theorem Page.byte_setByte (pg : Page) (o o' : Nat) (v : Byte) :
    (pg.setByte o v).byte o' = if o' = o then v else pg.byte o' := cellGet_cellSet pg.data o o' v

@[simp] theorem Page.setBytes_id (pg : Page) (o : Nat) (bs : List Byte) : (pg.setBytes o bs).id = pg.id := by
  induction bs generalizing pg o with
  | nil => rfl
  | cons b t ih => simp [Page.setBytes, ih]

@[simp] theorem Page.setBytes_freePointer (pg : Page) (o : Nat) (bs : List Byte) :
    (pg.setBytes o bs).freePointer = pg.freePointer := by
  induction bs generalizing pg o with
  | nil => rfl
  | cons b t ih => simp [Page.setBytes, ih]

theorem Page.wf_iff (c : Config) (pg : Page) : pg.wf c = true ↔
    pg.id < c.pageCount ∧ cellsWf c.pageSize 0 pg.data = true ∧ pg.freePointer ≤ c.pageSize := by
  simp [Page.wf, and_assoc]

theorem Page.wf_fresh {c : Config} {pid : Nat} (h : pid < c.pageCount) : (Page.fresh pid).wf c = true := by
  simp [Page.wf_iff, h, Page.fresh, cellsWf]

theorem Page.wf_setByte {c : Config} {pg : Page} {o : Nat} (h : o < c.pageSize) (v : Byte) (w : pg.wf c = true) :
    (pg.setByte o v).wf c = true := by
  rw [Page.wf_iff] at w ⊢
  exact ⟨w.1, cellsWf_cellSet h v w.2.1, w.2.2⟩

theorem Page.wf_setBytes {c : Config} {pg : Page} {o : Nat} {bs : List Byte} (h : o + bs.length ≤ c.pageSize)
    (w : pg.wf c = true) : (pg.setBytes o bs).wf c = true := by
  induction bs generalizing pg o with
  | nil => exact w
  | cons b t ih =>
    simp only [List.length_cons] at h
    exact ih (by omega) (Page.wf_setByte (by omega) b w)

theorem Page.wf_withFreePointer {c : Config} {pg : Page} {f : Nat} (h : f ≤ c.pageSize) (w : pg.wf c = true) :
    ({ pg with freePointer := f } : Page).wf c = true := by
  rw [Page.wf_iff] at w ⊢
  exact ⟨w.1, w.2.1, h⟩

/-! ## The page map -/

theorem findPage_id {m : Memory} {pid : Nat} {pg : Page} (h : findPage m pid = some pg) : pg.id = pid := by
  induction m with
  | nil => simp [findPage] at h
  | cons q t ih =>
    simp only [findPage] at h
    split at h
    · simp only [Option.some.injEq] at h; subst h; assumption
    · exact ih h

theorem findPage_mem {m : Memory} {pid : Nat} {pg : Page} (h : findPage m pid = some pg) : pg ∈ m := by
  induction m with
  | nil => simp [findPage] at h
  | cons q t ih =>
    simp only [findPage] at h
    split at h
    · simp only [Option.some.injEq] at h; subst h; simp
    · exact List.mem_cons_of_mem _ (ih h)

theorem findPage_none_iff {m : Memory} {pid : Nat} : findPage m pid = none ↔ ∀ q ∈ m, q.id ≠ pid := by
  induction m with
  | nil => simp [findPage]
  | cons q t ih =>
    simp only [findPage]
    split
    · rename_i h; simp [h]
    · rename_i h; simp [ih, h]

theorem findPage_erasePage_same (m : Memory) (pid : Nat) : findPage (erasePage pid m) pid = none := by
  induction m with
  | nil => rfl
  | cons q t ih =>
    simp only [erasePage]
    split
    · exact ih
    · rename_i h; simp [findPage, h, ih]

theorem findPage_erasePage_other {pid p : Nat} (h : p ≠ pid) (m : Memory) :
    findPage (erasePage pid m) p = findPage m p := by
  induction m with
  | nil => rfl
  | cons q t ih =>
    simp only [erasePage, findPage]
    split
    · rename_i hq; subst hq; simp [ih, Ne.symm h]
    · simp [findPage, ih]

theorem findPage_insertPage_other {pg : Page} {p : Nat} (h : p ≠ pg.id) (m : Memory) :
    findPage (insertPage pg m) p = findPage m p := by
  induction m with
  | nil => simp [insertPage, findPage, Ne.symm h]
  | cons q t ih =>
    simp only [insertPage]
    split <;> simp [findPage, ih, Ne.symm h]

theorem findPage_insertPage_same {pg : Page} {m : Memory} (h : ∀ q ∈ m, q.id ≠ pg.id) :
    findPage (insertPage pg m) pg.id = some pg := by
  induction m with
  | nil => simp [insertPage, findPage]
  | cons q t ih =>
    have hq := h q (by simp)
    simp only [insertPage]
    split
    · simp [findPage]
    · simp [findPage, hq, ih fun q hq => h q (by simp [hq])]

/-- The page map after a page was put: that page under its id, every other page as before. -/
theorem findPage_putPage (m : Memory) (pg : Page) (p : Nat) :
    findPage (putPage m pg) p = if p = pg.id then some pg else findPage m p := by
  unfold putPage
  split
  · rename_i h; subst h
    exact findPage_insertPage_same (findPage_none_iff.1 (findPage_erasePage_same m pg.id))
  · rename_i h
    rw [findPage_insertPage_other h, findPage_erasePage_other h]

theorem isCommitted_putPage (m : Memory) (pg : Page) (p : Nat) :
    isCommitted (putPage m pg) p = (decide (p = pg.id) || isCommitted m p) := by
  unfold isCommitted
  rw [findPage_putPage]
  split <;> simp_all

theorem pagesWf_mono {c : Config} {lo lo' : Nat} (h : lo' ≤ lo) {m : Memory} (w : pagesWf c lo m = true) :
    pagesWf c lo' m = true := by
  cases m with
  | nil => rfl
  | cons q t =>
    simp only [pagesWf, Bool.and_eq_true, decide_eq_true_eq] at w ⊢
    exact ⟨⟨by omega, w.1.2⟩, w.2⟩

theorem pagesWf_ge {c : Config} {lo : Nat} {m : Memory} (w : pagesWf c lo m = true) : ∀ q ∈ m, lo ≤ q.id := by
  induction m generalizing lo with
  | nil => simp
  | cons q t ih =>
    simp only [pagesWf, Bool.and_eq_true, decide_eq_true_eq] at w
    intro r hr
    rcases List.mem_cons.1 hr with rfl | hr
    · exact w.1.1
    · have := ih w.2 r hr; omega

theorem pagesWf_page {c : Config} {lo : Nat} {m : Memory} (w : pagesWf c lo m = true) : ∀ q ∈ m, q.wf c = true := by
  induction m generalizing lo with
  | nil => simp
  | cons q t ih =>
    simp only [pagesWf, Bool.and_eq_true, decide_eq_true_eq] at w
    intro r hr
    rcases List.mem_cons.1 hr with rfl | hr
    · exact w.1.2
    · exact ih w.2 r hr

theorem pagesWf_erasePage {c : Config} {lo : Nat} (pid : Nat) {m : Memory} (w : pagesWf c lo m = true) :
    pagesWf c lo (erasePage pid m) = true := by
  induction m generalizing lo with
  | nil => rfl
  | cons q t ih =>
    simp only [pagesWf, Bool.and_eq_true, decide_eq_true_eq] at w
    simp only [erasePage]
    split
    · exact pagesWf_mono (by omega) (ih w.2)
    · simp only [pagesWf, Bool.and_eq_true, decide_eq_true_eq]
      exact ⟨w.1, ih w.2⟩

theorem pagesWf_insertPage {c : Config} {lo : Nat} {pg : Page} (hl : lo ≤ pg.id) (hp : pg.wf c = true) {m : Memory}
    (w : pagesWf c lo m = true) (h : ∀ q ∈ m, q.id ≠ pg.id) : pagesWf c lo (insertPage pg m) = true := by
  induction m generalizing lo with
  | nil => simp [insertPage, pagesWf, hl, hp]
  | cons q t ih =>
    have hq := h q (by simp)
    simp only [pagesWf, Bool.and_eq_true, decide_eq_true_eq] at w
    simp only [insertPage]
    split
    · simp only [pagesWf, Bool.and_eq_true, decide_eq_true_eq]
      exact ⟨⟨hl, hp⟩, ⟨⟨by omega, w.1.2⟩, w.2⟩⟩
    · simp only [pagesWf, Bool.and_eq_true, decide_eq_true_eq]
      exact ⟨w.1, ih (by omega) w.2 fun q hq => h q (by simp [hq])⟩

/-- Putting a well-formed page keeps the canonical form of memory. -/
theorem wf_putPage {c : Config} {m : Memory} {pg : Page} (w : Memory.wf c m = true) (hp : pg.wf c = true) :
    Memory.wf c (putPage m pg) = true :=
  pagesWf_insertPage (Nat.zero_le _) hp (pagesWf_erasePage _ w)
    (findPage_none_iff.1 (findPage_erasePage_same m pg.id))

theorem wf_findPage {c : Config} {m : Memory} {pid : Nat} {pg : Page} (w : Memory.wf c m = true)
    (h : findPage m pid = some pg) : pg.wf c = true := pagesWf_page w pg (findPage_mem h)

theorem wf_nil (c : Config) : Memory.wf c [] = true := rfl

theorem length_insertPage (pg : Page) (m : Memory) : (insertPage pg m).length = m.length + 1 := by
  induction m with
  | nil => rfl
  | cons q t ih =>
    simp only [insertPage]
    split <;> simp [ih]

theorem erasePage_absent {pid : Nat} {m : Memory} (h : ∀ q ∈ m, q.id ≠ pid) : erasePage pid m = m := by
  induction m with
  | nil => rfl
  | cons q t ih =>
    have hq := h q (by simp)
    simp [erasePage, hq, ih fun q hq => h q (by simp [hq])]

theorem length_erasePage_present {c : Config} {lo pid : Nat} {m : Memory} (w : pagesWf c lo m = true) {pg : Page}
    (h : findPage m pid = some pg) : (erasePage pid m).length + 1 = m.length := by
  induction m generalizing lo with
  | nil => simp [findPage] at h
  | cons q t ih =>
    simp only [pagesWf, Bool.and_eq_true, decide_eq_true_eq] at w
    simp only [findPage] at h
    simp only [erasePage]
    split
    · rename_i hq
      rw [erasePage_absent fun r hr => by have := pagesWf_ge w.2 r hr; omega]
      simp
    · rename_i hq
      simp only [hq, if_false] at h
      simp [ih w.2 h]

/-- Putting a page that was committed commits no page. -/
theorem length_putPage_present {c : Config} {m : Memory} {pg old : Page} (w : Memory.wf c m = true)
    (h : findPage m pg.id = some old) : (putPage m pg).length = m.length := by
  rw [putPage, length_insertPage, length_erasePage_present w h]

/-- Putting a page that was not committed commits one. -/
theorem length_putPage_absent {m : Memory} {pg : Page} (h : findPage m pg.id = none) :
    (putPage m pg).length = m.length + 1 := by
  rw [putPage, length_insertPage, erasePage_absent (findPage_none_iff.1 h)]

/-! ## Addresses -/

theorem pageSize_pos (c : Config) : 0 < c.pageSize := Nat.two_pow_pos _

theorem pageCount_pos (c : Config) : 0 < c.pageCount := Nat.two_pow_pos _

theorem pageCount_mul_pageSize (c : Config) : c.pageCount * c.pageSize = 2 ^ 64 := by
  have h : c.offsetBits ≤ 64 := by simp only [Config.offsetBits]; omega
  rw [Config.pageCount, Config.pageSize, Config.pageIdBits, ← Nat.pow_add, Nat.sub_add_cancel h]

theorem offsetOf_lt (c : Config) (a : Word) : offsetOf c a < c.pageSize := Nat.mod_lt _ (pageSize_pos c)

theorem pageIdOf_lt (c : Config) (a : Word) : pageIdOf c a < c.pageCount := by
  rw [pageIdOf, Nat.div_lt_iff_lt_mul (pageSize_pos c), pageCount_mul_pageSize]
  exact a.isLt

theorem pageIdOperand_lt (c : Config) (p : Word) : pageIdOperand c p < c.pageCount := Nat.mod_lt _ (pageCount_pos c)

theorem leBytes_length (n v : Nat) : (leBytes n v).length = n := by
  induction n generalizing v with
  | zero => rfl
  | succ n ih => simp [leBytes, ih]

/-! ## A byte of memory -/

theorem memView_putPage (c : Config) (m : Memory) (pg : Page) (a : Word) :
    memView c (putPage m pg) a =
      if pageIdOf c a = pg.id then some (pg.byte (offsetOf c a)) else memView c m a := by
  unfold memView
  rw [findPage_putPage]
  by_cases h : pageIdOf c a = pg.id
  · rw [if_pos h, if_pos h]
  · rw [if_neg h, if_neg h]

theorem memView_isSome (c : Config) (m : Memory) (a : Word) :
    (memView c m a).isSome = isCommitted m (pageIdOf c a) := by
  unfold memView isCommitted
  cases findPage m (pageIdOf c a) <;> rfl

theorem memView_nil (c : Config) (a : Word) : memView c [] a = none := rfl

end Sys2Proof.Machine
end

