-- ==== Sys2Proof/Laws/Ops.lean ====
section
/-! SUPPORT. For each shared operation, once, what it can do: the page walk, byte, N-byte and sequence accesses, the occupancy
update, the loader's writes and the kernel's run; and that every memory operation keeps the canonical form. -/

namespace Sys2Proof.Machine

/-- Memory is in its canonical form and stays under the ceiling (R22, R24). -/
def GoodMemory (c : Config) (m : Memory) : Prop := Memory.wf c m = true ∧ m.length * c.pageSize ≤ c.capacity

/-- What every memory operation keeps: a good memory stays good, and no page is taken back (R23, R122). -/
structure KeepsMemory (c : Config) (m m' : Memory) : Prop where
  good : GoodMemory c m → GoodMemory c m'
  committed : ∀ p, isCommitted m p = true → isCommitted m' p = true

theorem KeepsMemory.refl (c : Config) (m : Memory) : KeepsMemory c m m := ⟨id, fun _ => id⟩

theorem KeepsMemory.trans {c : Config} {m m' m'' : Memory} (h : KeepsMemory c m m') (h' : KeepsMemory c m' m'') :
    KeepsMemory c m m'' := ⟨h'.good ∘ h.good, fun p hp => h'.committed p (h.committed p hp)⟩

/-! ## The page walk -/

/-- A lookup answers the committed page and changes nothing, or, with WRITE intent and room, commits a fresh page (R53). -/
theorem lookupPage_ok {c : Config} {m m' : Memory} {pid off : Nat} {i : Intent} {pg : Page}
    (h : lookupPage c m pid off i = .ok (pg, m')) :
    (findPage m pid = some pg ∧ m' = m) ∨
    (i = .write ∧ findPage m pid = none ∧ capacityExceeded c m = false ∧
      pg = Page.fresh pid ∧ m' = putPage m (Page.fresh pid)) := by
  unfold lookupPage at h
  split at h
  · rename_i q hq
    simp only [Except.ok.injEq, Prod.mk.injEq] at h
    exact .inl ⟨by rw [hq, h.1], h.2.symm⟩
  · rename_i hq
    split at h
    · cases h
    · split at h
      · cases h
      · rename_i hc
        simp only [Except.ok.injEq, Prod.mk.injEq] at h
        exact .inr ⟨rfl, hq, by simpa using hc, h.1.symm, h.2.symm⟩

/-- A lookup faults exactly on an uncommitted page, with READ intent, or with WRITE intent and no room (R53, R243). -/
theorem lookupPage_error {c : Config} {m : Memory} {pid off : Nat} {i : Intent} {f : FatalRecord}
    (h : lookupPage c m pid off i = .error f) :
    findPage m pid = none ∧ f = lookupFault c pid off i ∧ (i = .write → capacityExceeded c m = true) := by
  unfold lookupPage at h
  split at h
  · cases h
  · rename_i hq
    split at h
    · cases h; exact ⟨hq, rfl, by simp⟩
    · split at h
      · rename_i hc; cases h; exact ⟨hq, rfl, fun _ => hc⟩
      · cases h

theorem lookupPage_read (c : Config) (m : Memory) (pid off : Nat) :
    lookupPage c m pid off .read =
      match findPage m pid with
      | some pg => .ok (pg, m)
      | none => .error (lookupFault c pid off .read) := by
  unfold lookupPage
  cases findPage m pid <;> rfl

theorem findPage_of_lookupPage {c : Config} {m m' : Memory} {pid off : Nat} {i : Intent} {pg : Page}
    (h : lookupPage c m pid off i = .ok (pg, m')) : findPage m' pid = some pg := by
  rcases lookupPage_ok h with ⟨h, rfl⟩ | ⟨-, -, -, rfl, rfl⟩
  · exact h
  · simp [findPage_putPage]

theorem lookupPage_keeps {c : Config} {m m' : Memory} {pid off : Nat} {i : Intent} {pg : Page}
    (hp : pid < c.pageCount) (h : lookupPage c m pid off i = .ok (pg, m')) : KeepsMemory c m m' := by
  rcases lookupPage_ok h with ⟨-, rfl⟩ | ⟨-, hn, hc, -, rfl⟩
  · exact .refl c m'
  · refine ⟨fun g => ⟨wf_putPage g.1 (Page.wf_fresh hp), ?_⟩, fun p hq => by simp [isCommitted_putPage, hq]⟩
    rw [length_putPage_absent (by simpa using hn)]
    simpa [capacityExceeded] using hc

/-- Replacing a committed page by a well-formed one keeps memory. -/
theorem putPage_keeps {c : Config} {m : Memory} {pid : Nat} {old pg : Page} (h : findPage m pid = some old)
    (hid : pg.id = pid) (hw : GoodMemory c m → pg.wf c = true) : KeepsMemory c m (putPage m pg) := by
  refine ⟨fun g => ⟨wf_putPage g.1 (hw g), ?_⟩, fun p hq => by simp [isCommitted_putPage, hq]⟩
  rw [length_putPage_present g.1 (by rw [hid]; exact h)]
  exact g.2

/-! ## Bytes -/

/-- A byte load is a read of memory, or a page fault at its address (R141). -/
theorem loadByte_eq (c : Config) (m : Memory) (a : Word) :
    loadByte c m a =
      match memView c m a with
      | some b => .ok b
      | none => .error (lookupFault c (pageIdOf c a) (offsetOf c a) .read) := by
  unfold loadByte memView
  rw [lookupPage_read]
  cases findPage m (pageIdOf c a) <;> rfl

/-- `join(split(a)) = a` (R51). -/
theorem joinAddr_split (c : Config) (a : Word) : joinAddr c (pageIdOf c a) (offsetOf c a) = a := by
  rw [joinAddr, pageIdOf, offsetOf, Nat.div_add_mod']
  simp

theorem eq_of_split {c : Config} {a b : Word} (hp : pageIdOf c a = pageIdOf c b) (ho : offsetOf c a = offsetOf c b) :
    a = b := by rw [← joinAddr_split c a, ← joinAddr_split c b, hp, ho]

/-- A page fault of an access at `a` names `a` (R242). -/
theorem lookupFault_read_split (c : Config) (a : Word) :
    lookupFault c (pageIdOf c a) (offsetOf c a) .read = { cause := .pageFault, addr := a, intent := .read } := by
  rw [lookupFault, joinAddr_split]

/-- A capacity fault of an access at `a` names `a` (R242). -/
theorem lookupFault_write_split (c : Config) (a : Word) :
    lookupFault c (pageIdOf c a) (offsetOf c a) .write =
      { cause := .capacityExhausted, addr := a, intent := .write } := by
  rw [lookupFault, joinAddr_split]

/-- Every byte after a byte store: the stored one; a byte of the same page as before, or 0 where the store committed the
page; every other as before (R142, R23). -/
theorem memView_storeByte {c : Config} {m m' : Memory} {a : Word} {v : Byte} (h : storeByte c m a v = .ok m')
    (x : Word) :
    memView c m' x =
      if x = a then some v
      else if pageIdOf c x = pageIdOf c a then some ((memView c m x).getD 0)
      else memView c m x := by
  unfold storeByte at h
  split at h
  · cases h
  · rename_i pg m₁ hl
    simp only [Except.ok.injEq] at h
    subst h
    have hid : pg.id = pageIdOf c a := findPage_id (findPage_of_lookupPage hl)
    rw [memView_putPage, Page.setByte_id, hid, Page.byte_setByte]
    by_cases hx : x = a
    · simp [hx]
    by_cases hp : pageIdOf c x = pageIdOf c a
    · have ho : offsetOf c x ≠ offsetOf c a := fun ho => hx (eq_of_split hp ho)
      rw [if_pos hp, if_neg ho, if_neg hx, if_pos hp]
      rcases lookupPage_ok hl with ⟨hf, rfl⟩ | ⟨-, hf, -, rfl, rfl⟩
      · simp [memView, hp, hf]
      · simp [memView, hp, hf]
    · rw [if_neg hp, if_neg hx, if_neg hp]
      rcases lookupPage_ok hl with ⟨hf, rfl⟩ | ⟨-, hf, -, rfl, rfl⟩
      · rfl
      · simp [memView_putPage, hp]

theorem storeByte_keeps {c : Config} {m m' : Memory} {a : Word} {v : Byte} (h : storeByte c m a v = .ok m') :
    KeepsMemory c m m' := by
  unfold storeByte at h
  split at h
  · cases h
  · rename_i pg m₁ hl
    simp only [Except.ok.injEq] at h
    subst h
    have hf := findPage_of_lookupPage hl
    exact (lookupPage_keeps (pageIdOf_lt c a) hl).trans
      (putPage_keeps hf (by simp [findPage_id hf]) fun g => Page.wf_setByte (offsetOf_lt c a) v (wf_findPage g.1 hf))

/-- A byte store commits its page. -/
theorem isCommitted_storeByte {c : Config} {m m' : Memory} {a : Word} {v : Byte} (h : storeByte c m a v = .ok m')
    (p : Nat) : isCommitted m' p = (decide (p = pageIdOf c a) || isCommitted m p) := by
  unfold storeByte at h
  split at h
  · cases h
  · rename_i pg m₁ hl
    simp only [Except.ok.injEq] at h
    subst h
    have hid : pg.id = pageIdOf c a := findPage_id (findPage_of_lookupPage hl)
    rw [isCommitted_putPage, Page.setByte_id, hid]
    rcases lookupPage_ok hl with ⟨hf, rfl⟩ | ⟨-, hf, -, rfl, rfl⟩
    · rfl
    · rw [isCommitted_putPage, Page.fresh_id, ← Bool.or_assoc, Bool.or_self]

/-- A byte store fails exactly when its page is uncommitted and there is no room, with the record of its address (R142). -/
theorem storeByte_error {c : Config} {m : Memory} {a : Word} {v : Byte} {f : FatalRecord}
    (h : storeByte c m a v = .error f) :
    isCommitted m (pageIdOf c a) = false ∧ capacityExceeded c m = true ∧
      f = { cause := .capacityExhausted, addr := a, intent := .write } := by
  unfold storeByte at h
  split at h
  · rename_i f' hl
    cases h
    obtain ⟨hn, rfl, hc⟩ := lookupPage_error hl
    exact ⟨by simp [isCommitted, hn], hc rfl, lookupFault_write_split c a⟩
  · cases h

/-! ## N bytes and sequences -/

theorem storeN_keeps {c : Config} {m m' : Memory} {k : Nat} {a : Word} {v : Nat} (h : storeN c m k a v = .ok m') :
    KeepsMemory c m m' := by
  induction k generalizing m m' a v with
  | zero => exact storeByte_keeps h
  | succ k ih =>
    unfold storeN at h
    split at h
    · rename_i hfit
      split at h
      · cases h
      · rename_i pg m₁ hl
        simp only [Except.ok.injEq] at h
        subst h
        have hf := findPage_of_lookupPage hl
        exact (lookupPage_keeps (pageIdOf_lt c a) hl).trans
          (putPage_keeps hf (by simp [findPage_id hf]) fun g =>
            Page.wf_setBytes (by simpa [fitsInOnePage, leBytes_length] using hfit) (wf_findPage g.1 hf))
    · split at h
      · cases h
      · rename_i m₁ h₁
        exact (ih h₁).trans (ih h)

theorem storeWidth_keeps {c : Config} {m m' : Memory} {w : Width} {a d : Word} (h : storeWidth c m w a d = .ok m') :
    KeepsMemory c m m' := storeN_keeps h

theorem storeBytes_keeps {c : Config} {m m' : Memory} {a : Word} {bs : List Byte}
    (h : storeBytes c m a bs = .ok m') : KeepsMemory c m m' := by
  induction bs generalizing m a with
  | nil => simp only [storeBytes, Except.ok.injEq] at h; subst h; exact .refl c m
  | cons b t ih =>
    simp only [storeBytes] at h
    split at h
    · cases h
    · rename_i m₁ h₁
      exact (storeByte_keeps h₁).trans (ih h)

/-- The new free pointer of the occupancy loop never passes the page's end (R22, R153). -/
theorem occupyPage_le {c : Config} {fp off rem : Nat} (hf : fp ≤ c.pageSize) (ho : off < c.pageSize) :
    (occupyPage c fp off rem).1 ≤ c.pageSize := by
  unfold occupyPage
  split
  · exact hf
  · simp only
    omega

/-- An iteration consumes at least one byte and at most what is left (R153). -/
theorem occupyPage_consumes {c : Config} {fp off rem : Nat} (ho : off < c.pageSize) (hr : 0 < rem) :
    0 < (occupyPage c fp off rem).2 ∧ (occupyPage c fp off rem).2 ≤ rem := by
  unfold occupyPage
  split <;> simp only <;> omega

theorem occupancyUpdate_keeps {c : Config} {m m' : Memory} {fuel : Nat} {a : Word} {rem : Nat}
    (h : occupancyUpdate c m fuel a rem = .ok m') : KeepsMemory c m m' := by
  induction fuel generalizing m a rem with
  | zero => simp only [occupancyUpdate, Except.ok.injEq] at h; subst h; exact .refl c m
  | succ n ih =>
    unfold occupancyUpdate at h
    split at h
    · simp only [Except.ok.injEq] at h; subst h; exact .refl c m
    · split at h
      · cases h
      · rename_i pg m₁ hl
        have hf : findPage m (pageIdOf c a) = some pg := by
          rcases lookupPage_ok hl with ⟨hf, -⟩ | ⟨hw, -⟩
          · exact hf
          · cases hw
        have hid : pg.id = pageIdOf c a := findPage_id hf
        refine (putPage_keeps (pg := { pg with freePointer := (occupyPage c pg.freePointer (offsetOf c a) rem).1 })
          hf hid fun g => ?_).trans (ih h)
        have hpw := wf_findPage g.1 hf
        exact Page.wf_withFreePointer (occupyPage_le ((Page.wf_iff c pg).1 hpw).2.2 (offsetOf_lt c a)) hpw

/-- The occupancy update writes no byte of memory (R64, R153). -/
theorem memView_occupancyUpdate {c : Config} {m m' : Memory} {fuel : Nat} {a : Word} {rem : Nat}
    (h : occupancyUpdate c m fuel a rem = .ok m') (x : Word) : memView c m' x = memView c m x := by
  induction fuel generalizing m a rem with
  | zero => simp only [occupancyUpdate, Except.ok.injEq] at h; subst h; rfl
  | succ n ih =>
    unfold occupancyUpdate at h
    split at h
    · simp only [Except.ok.injEq] at h; subst h; rfl
    · split at h
      · cases h
      · rename_i pg m₁ hl
        have hf : findPage m (pageIdOf c a) = some pg := by
          rcases lookupPage_ok hl with ⟨hf, -⟩ | ⟨hw, -⟩
          · exact hf
          · cases hw
        rw [ih h, memView_putPage]
        split
        · rename_i hx
          have hid : pg.id = pageIdOf c a := findPage_id hf
          have hx' : pageIdOf c x = pageIdOf c a := Eq.trans hx hid
          simp [memView, hx', hf, Page.byte]
        · rfl

theorem storeSequence_keeps {c : Config} {m m' : Memory} {a : Word} {bs : List Byte}
    (h : storeSequence c m a bs = .ok m') : KeepsMemory c m m' := by
  unfold storeSequence at h
  split at h
  · cases h
  · rename_i m₁ h₁
    exact (storeBytes_keeps h₁).trans (occupancyUpdate_keeps h)

/-- A load of a sequence is the list of its byte loads (R155). -/
theorem loadBytes_length {c : Config} {m : Memory} {a : Word} {n : Nat} {q : List Byte}
    (h : loadBytes c m a n = .ok q) : q.length = n := by
  induction n generalizing a q with
  | zero => simp only [loadBytes, Except.ok.injEq] at h; subst h; rfl
  | succ n ih =>
    simp only [loadBytes] at h
    split at h
    · cases h
    · split at h
      · cases h
      · rename_i t ht
        simp only [Except.ok.injEq] at h
        subst h
        simp [ih ht]

/-! ## The loader and the kernel -/

theorem loadSegments_keeps {c : Config} {img : List Byte} {m m' : Memory} {hs : List ProgramHeader}
    (h : loadSegments c img m hs = .ok m') : KeepsMemory c m m' := by
  induction hs generalizing m with
  | nil => simp only [loadSegments, Except.ok.injEq] at h; subst h; exact .refl c m
  | cons p t ih =>
    simp only [loadSegments] at h
    split at h
    · split at h
      · cases h
      · rename_i m₁ h₁
        exact (storeSequence_keeps h₁).trans (ih h)
    · exact ih h

/-- Whatever the kernel does, memory changes only through the block's commands (R11), so it is kept. -/
theorem runKernelProg_keeps {c : Config} {p : KernelProg} {m m' : Memory} {v : KernelVerdict}
    (h : runKernelProg c m p = .ok (v, m')) : KeepsMemory c m m' := by
  induction p generalizing m with
  | next pc ks => simp only [runKernelProg, Except.ok.injEq, Prod.mk.injEq] at h; rw [h.2]; exact .refl c m'
  | kernelFault k => simp only [runKernelProg, Except.ok.injEq, Prod.mk.injEq] at h; rw [h.2]; exact .refl c m'
  | load w a k ih =>
    simp only [runKernelProg] at h
    split at h
    · cases h
    · exact ih _ h
  | store w a d k ih =>
    simp only [runKernelProg] at h
    split at h
    · cases h
    · rename_i m₁ h₁
      exact (storeWidth_keeps h₁).trans (ih h)
  | loadSeq a l k ih =>
    simp only [runKernelProg] at h
    split at h
    · cases h
    · exact ih _ h
  | storeSeq a b k ih =>
    simp only [runKernelProg] at h
    split at h
    · cases h
    · rename_i m₁ h₁
      exact (storeSequence_keeps h₁).trans (ih h)

/-! ## What a command can answer with -/

theorem unlessFatal_of_safe {s : State} (h : s.fatal = none) (o : Host.Outcome State Fault Refusal) :
    unlessFatal s o = o := by rw [unlessFatal, h]

theorem unlessFatal_of_fatal {s : State} {f : FatalRecord} (h : s.fatal = some f)
    (o : Host.Outcome State Fault Refusal) : unlessFatal s o = .next (s.answer (fatalResponse f)) := by
  rw [unlessFatal, h]

/-- A command that only answers: it leaves the state but its response, or takes a fatal fault. -/
theorem answerFrom_next {α : Type} {s t : State} {r : Except FatalRecord α} {resp : α → Response}
    (h : answerFrom s r resp = .next t) :
    (∃ v, r = .ok v ∧ t = s.answer (resp v)) ∨ (∃ f, r = .error f ∧ t = s.raiseFatal f) := by
  cases r with
  | ok v => exact .inl ⟨v, rfl, by simpa [answerFrom] using h.symm⟩
  | error f => exact .inr ⟨f, rfl, by simpa [answerFrom] using h.symm⟩

/-- A command that stores: it leaves the state but its pages and its response, or takes a fatal fault. -/
theorem storeThrough_next {s t : State} {r : Except FatalRecord Memory} {resp : Response}
    (h : storeThrough s r resp = .next t) :
    (∃ m, r = .ok m ∧ t = (s.withPages m).answer resp) ∨ (∃ f, r = .error f ∧ t = s.raiseFatal f) := by
  cases r with
  | ok m => exact .inl ⟨m, rfl, by simpa [storeThrough] using h.symm⟩
  | error f => exact .inr ⟨f, rfl, by simpa [storeThrough] using h.symm⟩

/-- How a cycle ends (R215): it completes with the write-back; or the kernel faults, and only memory changed; or a fatal fault
in the fetch or in the kernel's accesses. -/
theorem cycle_cases (K : Kernel) (s : State) :
    (∃ m pc ks, KeepsMemory s.cfg s.pages m ∧ cycle K s = .completed (s.writeBack m pc ks)) ∨
    (∃ k m, KeepsMemory s.cfg s.pages m ∧ cycle K s = .kernelFault k (s.withPages m)) ∨
    (∃ f, cycle K s = .fatal f) := by
  unfold cycle
  split
  · exact .inr (.inr ⟨_, rfl⟩)
  · split
    · exact .inr (.inr ⟨_, rfl⟩)
    · rename_i pc ks m h
      exact .inl ⟨m, pc, ks, runKernelProg_keeps h, rfl⟩
    · rename_i k m h
      exact .inr (.inl ⟨k, m, runKernelProg_keeps h, rfl⟩)

end Sys2Proof.Machine
end

