-- ==== Sys2Proof/Laws/Access.lean ====
section
/-! SUPPORT. What N-byte and sequence accesses do, in terms of single bytes: loads and stores of a list of bytes, the fast path as a
list of bytes in one page, the slow path as two lists one after the other. -/

namespace Sys2Proof.Machine

/-! ## Addresses -/

@[simp] theorem addrAdd_zero (a : Word) : addrAdd a 0 = a := by simp [addrAdd]

theorem addrAdd_addrAdd (a : Word) (i j : Nat) : addrAdd (addrAdd a i) j = addrAdd a (i + j) := by
  simp [addrAdd, BitVec.ofNat_add, BitVec.add_assoc]

theorem toNat_split (c : Config) (a : Word) : a.toNat = pageIdOf c a * c.pageSize + offsetOf c a := by
  rw [pageIdOf, offsetOf, Nat.div_add_mod']

/-- The top of a page is not past the top of the address space. -/
theorem page_end_le (c : Config) (a : Word) : (pageIdOf c a + 1) * c.pageSize ≤ 2 ^ 64 := by
  rw [← pageCount_mul_pageSize c]
  exact Nat.mul_le_mul_right _ (pageIdOf_lt c a)

theorem toNat_addrAdd_in_page {c : Config} {a : Word} {i : Nat} (h : offsetOf c a + i < c.pageSize) :
    (addrAdd a i).toNat = a.toNat + i := by
  have h1 := toNat_split c a
  have h2 := page_end_le c a
  rw [Nat.add_mul, Nat.one_mul] at h2
  rw [addrAdd, BitVec.toNat_add, BitVec.toNat_ofNat, Nat.mod_eq_of_lt (a := i) (by omega), Nat.mod_eq_of_lt (by omega)]

theorem pageIdOf_addrAdd {c : Config} {a : Word} {i : Nat} (h : offsetOf c a + i < c.pageSize) :
    pageIdOf c (addrAdd a i) = pageIdOf c a := by
  rw [pageIdOf, toNat_addrAdd_in_page h, toNat_split c a, Nat.add_assoc, Nat.mul_comm,
    Nat.mul_add_div (pageSize_pos c), Nat.div_eq_of_lt h, Nat.add_zero]

theorem offsetOf_addrAdd {c : Config} {a : Word} {i : Nat} (h : offsetOf c a + i < c.pageSize) :
    offsetOf c (addrAdd a i) = offsetOf c a + i := by
  rw [offsetOf, toNat_addrAdd_in_page h, toNat_split c a, Nat.add_assoc, Nat.mul_comm, Nat.mul_add_mod,
    Nat.mod_eq_of_lt h]

theorem addrRange_length (a : Word) (n : Nat) : (addrRange a n).length = n := by
  induction n generalizing a with
  | zero => rfl
  | succ n ih => simp [addrRange, ih]

theorem mem_addrRange {a x : Word} {n : Nat} : x ∈ addrRange a n ↔ ∃ i < n, x = addrAdd a i := by
  induction n generalizing a with
  | zero => simp [addrRange]
  | succ n ih =>
    simp only [addrRange, List.mem_cons, ih, addrAdd_addrAdd]
    constructor
    · rintro (rfl | ⟨i, hi, rfl⟩)
      · exact ⟨0, by omega, by simp⟩
      · exact ⟨1 + i, by omega, rfl⟩
    · rintro ⟨i, hi, rfl⟩
      cases i with
      | zero => left; simp
      | succ i => right; exact ⟨i, by omega, by rw [Nat.add_comm]⟩

/-- How far `x` lies above `a`, modulo 2^64, is how far it lies in a range from `a` on. -/
theorem sub_toNat_addrAdd {a : Word} {i : Nat} (h : i < 2 ^ 64) : (addrAdd a i - a).toNat = i := by
  rw [addrAdd, BitVec.add_comm, BitVec.add_sub_cancel, BitVec.toNat_ofNat, Nat.mod_eq_of_lt h]

theorem addrAdd_sub (a x : Word) : addrAdd a (x - a).toNat = x := by
  rw [addrAdd, BitVec.ofNat_toNat, BitVec.setWidth_eq, BitVec.add_comm, BitVec.sub_add_cancel]

theorem mem_addrRange_iff {a x : Word} {n : Nat} (hn : n ≤ 2 ^ 64) : x ∈ addrRange a n ↔ (x - a).toNat < n := by
  rw [mem_addrRange]
  constructor
  · rintro ⟨i, hi, rfl⟩
    rw [sub_toNat_addrAdd (by omega)]; exact hi
  · intro h
    exact ⟨(x - a).toNat, h, (addrAdd_sub a x).symm⟩

/-! ## Byte order -/

theorem leValue_append (x y : List Byte) : leValue (x ++ y) = leValue x + leValue y * 256 ^ x.length := by
  induction x with
  | nil => simp [leValue]
  | cons b t ih => simp only [List.cons_append, leValue, ih, List.length_cons, Nat.pow_succ]; ring

theorem leValue_leBytes (n v : Nat) : leValue (leBytes n v) = v % 256 ^ n := by
  induction n generalizing v with
  | zero => simp [leBytes, leValue, Nat.mod_one]
  | succ n ih =>
    rw [leBytes, leValue, ih, BitVec.toNat_ofNat, show (2 : Nat) ^ 8 = 256 from rfl, Nat.pow_succ,
      Nat.mul_comm (256 ^ n), Nat.mod_mul]

theorem leBytes_add (n k v : Nat) : leBytes (n + k) v = leBytes n v ++ leBytes k (v / 256 ^ n) := by
  induction n generalizing v with
  | zero => simp [leBytes]
  | succ n ih =>
    rw [Nat.succ_add]
    simp only [leBytes, ih, List.cons_append]
    rw [Nat.div_div_eq_div_mul, Nat.pow_succ, Nat.mul_comm 256]

theorem leBytes_mod (n v : Nat) : leBytes n (v % 256 ^ n) = leBytes n v := by
  induction n generalizing v with
  | zero => rfl
  | succ n ih =>
    have h1 : v % 256 ^ (n + 1) / 256 = v / 256 % 256 ^ n := by
      rw [Nat.pow_succ, Nat.mul_comm, Nat.mod_mul_right_div_self]
    have h2 : BitVec.ofNat 8 (v % 256 ^ (n + 1)) = BitVec.ofNat 8 v := by
      apply BitVec.eq_of_toNat_eq
      simp only [BitVec.toNat_ofNat]
      rw [Nat.pow_succ, Nat.mod_mod_of_dvd _ (Dvd.intro_left _ rfl)]
    simp only [leBytes, h1, h2, ih]

/-! ## Loads of a list of bytes -/

theorem loadByte_of_view {c : Config} {m : Memory} {a : Word} {b : Byte} (h : memView c m a = some b) :
    loadByte c m a = .ok b := by rw [loadByte_eq, h]

theorem loadByte_of_uncommitted {c : Config} {m : Memory} {a : Word} (h : memView c m a = none) :
    loadByte c m a = .error { cause := .pageFault, addr := a, intent := .read } := by
  rw [loadByte_eq, h]
  exact congrArg _ (lookupFault_read_split c a)

/-- A load of committed bytes answers them, ascending (R155). -/
theorem loadBytes_of_view {c : Config} {m : Memory} {a : Word} {n : Nat} {f : Nat → Byte}
    (h : ∀ i < n, memView c m (addrAdd a i) = some (f i)) : loadBytes c m a n = .ok ((List.range n).map f) := by
  induction n generalizing a f with
  | zero => rfl
  | succ n ih =>
    have h0 := h 0 (by omega)
    rw [addrAdd_zero] at h0
    rw [loadBytes, loadByte_of_view h0, ih (f := fun i => f (i + 1)) fun i hi => by
      rw [addrAdd_addrAdd, Nat.add_comm]; exact h (i + 1) (by omega)]
    simp [List.range_succ_eq_map, Function.comp_def]

/-- A load faults at its first uncommitted address, ascending (R155, R242). -/
theorem loadBytes_of_uncommitted {c : Config} {m : Memory} {a : Word} {n j : Nat} (hj : j < n)
    (h : ∀ i < j, (memView c m (addrAdd a i)).isSome = true) (hu : memView c m (addrAdd a j) = none) :
    loadBytes c m a n = .error { cause := .pageFault, addr := addrAdd a j, intent := .read } := by
  induction n generalizing a j with
  | zero => omega
  | succ n ih =>
    cases j with
    | zero => rw [addrAdd_zero] at hu; rw [loadBytes, loadByte_of_uncommitted hu, addrAdd_zero]
    | succ j =>
      have h0 := h 0 (by omega)
      rw [addrAdd_zero, Option.isSome_iff_exists] at h0
      obtain ⟨b, hb⟩ := h0
      rw [loadBytes, loadByte_of_view hb, ih (j := j) (by omega)]
      · simp only [addrAdd_addrAdd, Nat.add_comm]
      · intro i hi; rw [addrAdd_addrAdd, Nat.add_comm]; exact h (i + 1) (by omega)
      · rw [addrAdd_addrAdd, Nat.add_comm]; exact hu

theorem loadBytes_append (c : Config) (m : Memory) (a : Word) (n k : Nat) :
    loadBytes c m a (n + k) =
      match loadBytes c m a n with
      | .error f => .error f
      | .ok x =>
        match loadBytes c m (addrAdd a n) k with
        | .error f => .error f
        | .ok y => .ok (x ++ y) := by
  induction n generalizing a with
  | zero =>
    rw [Nat.zero_add, addrAdd_zero, loadBytes]
    cases loadBytes c m a k <;> rfl
  | succ n ih =>
    rw [Nat.succ_add, loadBytes, loadBytes]
    cases loadByte c m a with
    | error f => rfl
    | ok b =>
      simp only [ih, addrAdd_addrAdd, Nat.add_comm 1 n]
      cases loadBytes c m (addrAdd a 1) n with
      | error f => rfl
      | ok x => cases loadBytes c m (addrAdd a (n + 1)) k <;> rfl

/-- A list of bytes inside one page, read through one lookup (R143). -/
theorem loadBytes_in_page {c : Config} {m : Memory} {a : Word} {n : Nat} (hn : 0 < n)
    (h : offsetOf c a + n ≤ c.pageSize) :
    loadBytes c m a n =
      match lookupPage c m (pageIdOf c a) (offsetOf c a) .read with
      | .error f => .error f
      | .ok (pg, _) => .ok (pg.bytes (offsetOf c a) n) := by
  induction n generalizing a with
  | zero => omega
  | succ n ih =>
    rw [loadBytes, loadByte, lookupPage_read]
    cases hp : findPage m (pageIdOf c a) with
    | none => rfl
    | some pg =>
      simp only [Page.bytes]
      rcases Nat.eq_zero_or_pos n with rfl | hpos
      · rfl
      · have h1 : offsetOf c a + 1 < c.pageSize := by omega
        rw [ih hpos (by rw [offsetOf_addrAdd h1]; omega), pageIdOf_addrAdd h1, offsetOf_addrAdd h1, lookupPage_read, hp]

/-- An N-byte load is the little-endian value of its N byte loads, fault included (R143, R144, R159). -/
theorem loadN_eq_loadBytes (c : Config) (m : Memory) (k : Nat) (a : Word) :
    loadN c m k a =
      match loadBytes c m a (2 ^ k) with
      | .error f => .error f
      | .ok bs => .ok (leValue bs) := by
  induction k generalizing a with
  | zero =>
    rw [loadN, Nat.pow_zero, loadBytes]
    cases loadByte c m a with
    | error f => rfl
    | ok b => simp [loadBytes, leValue]
  | succ k ih =>
    rw [loadN]
    split
    · rename_i hfit
      rw [loadBytes_in_page (Nat.two_pow_pos _) (by simpa [fitsInOnePage] using hfit)]
      cases lookupPage c m (pageIdOf c a) (offsetOf c a) .read <;> rfl
    · have h2 : 2 ^ (k + 1) = 2 ^ k + 2 ^ k := by rw [Nat.pow_succ]; omega
      rw [h2, loadBytes_append, ih, ih]
      cases hx : loadBytes c m a (2 ^ k) with
      | error f => rfl
      | ok x =>
        cases loadBytes c m (addrAdd a (2 ^ k)) (2 ^ k) with
        | error f => rfl
        | ok y => simp only [leValue_append, loadBytes_length hx, Nat.pow_mul, show (2 : Nat) ^ 8 = 256 from rfl]

/-! ## Stores of a list of bytes -/

theorem erasePage_insertPage {pg : Page} {m : Memory} (h : ∀ q ∈ m, q.id ≠ pg.id) :
    erasePage pg.id (insertPage pg m) = m := by
  induction m with
  | nil => simp [insertPage, erasePage]
  | cons q t ih =>
    have hq := h q (by simp)
    have ht := fun r hr => h r (List.mem_cons_of_mem q hr)
    simp only [insertPage]
    split
    · simp [erasePage, hq, erasePage_absent ht]
    · simp [erasePage, hq, ih ht]

/-- Putting a page twice is putting it once. -/
theorem putPage_putPage {m : Memory} {p q : Page} (h : p.id = q.id) : putPage (putPage m p) q = putPage m q := by
  unfold putPage
  rw [← h, erasePage_insertPage (findPage_none_iff.1 (findPage_erasePage_same m p.id))]

theorem storeBytes_append (c : Config) (m : Memory) (a : Word) (x y : List Byte) :
    storeBytes c m a (x ++ y) =
      match storeBytes c m a x with
      | .error f => .error f
      | .ok m' => storeBytes c m' (addrAdd a x.length) y := by
  induction x generalizing m a with
  | nil => simp [storeBytes]
  | cons b t ih =>
    simp only [List.cons_append, storeBytes, List.length_cons]
    cases storeByte c m a b with
    | error f => rfl
    | ok m' => simp only [ih, addrAdd_addrAdd, Nat.add_comm 1]

theorem lookupPage_of_found {c : Config} {m : Memory} {pid off : Nat} {i : Intent} {pg : Page}
    (h : findPage m pid = some pg) : lookupPage c m pid off i = .ok (pg, m) := by simp [lookupPage, h]

/-- A list of bytes inside one page, stored through one lookup (R148). -/
theorem storeBytes_in_page {c : Config} {m : Memory} {a : Word} {b : Byte} {t : List Byte}
    (h : offsetOf c a + (t.length + 1) ≤ c.pageSize) :
    storeBytes c m a (b :: t) =
      match lookupPage c m (pageIdOf c a) (offsetOf c a) .write with
      | .error f => .error f
      | .ok (pg, m') => .ok (putPage m' (pg.setBytes (offsetOf c a) (b :: t))) := by
  induction t generalizing m a b with
  | nil =>
    simp only [storeBytes, storeByte]
    cases lookupPage c m (pageIdOf c a) (offsetOf c a) .write <;> rfl
  | cons b' t ih =>
    rw [storeBytes, storeByte]
    cases hl : lookupPage c m (pageIdOf c a) (offsetOf c a) .write with
    | error f => rfl
    | ok r =>
      obtain ⟨pg, m'⟩ := r
      have hid : pg.id = pageIdOf c a := findPage_id (findPage_of_lookupPage hl)
      simp only [List.length_cons] at h
      have h1 : offsetOf c a + 1 < c.pageSize := by omega
      simp only
      rw [ih (by rw [offsetOf_addrAdd h1]; omega), pageIdOf_addrAdd h1, offsetOf_addrAdd h1,
        lookupPage_of_found (pg := pg.setByte (offsetOf c a) b) (by simp [findPage_putPage, hid])]
      simp only [Page.setBytes]
      rw [putPage_putPage (by simp)]

theorem leBytes_pos {n v : Nat} (h : 0 < n) : ∃ b t, leBytes n v = b :: t ∧ t.length + 1 = n := by
  cases n with
  | zero => omega
  | succ n => exact ⟨_, _, rfl, by simp [leBytes_length]⟩

/-- An N-byte store is its N byte stores, ascending, fault included (R148, R149, R159). -/
theorem storeN_eq_storeBytes (c : Config) (m : Memory) (k : Nat) (a : Word) (v : Nat) :
    storeN c m k a v = storeBytes c m a (leBytes (2 ^ k) v) := by
  induction k generalizing m a v with
  | zero =>
    rw [storeN, Nat.pow_zero]
    simp only [leBytes, storeBytes]
    cases storeByte c m a (BitVec.ofNat 8 v) <;> rfl
  | succ k ih =>
    rw [storeN]
    split
    · rename_i hfit
      obtain ⟨b, t, hb, ht⟩ := leBytes_pos (v := v) (Nat.two_pow_pos (k + 1))
      rw [hb]
      refine Eq.trans ?_ (storeBytes_in_page (by rw [ht]; simpa [fitsInOnePage] using hfit)).symm
      cases lookupPage c m (pageIdOf c a) (offsetOf c a) .write <;> rfl
    · have h2 : 2 ^ (k + 1) = 2 ^ k + 2 ^ k := by rw [Nat.pow_succ]; omega
      have h3 : 2 ^ (8 * 2 ^ k) = 256 ^ 2 ^ k := by rw [Nat.pow_mul]
      rw [h2, leBytes_add, storeBytes_append, ih, h3, leBytes_mod, leBytes_length]
      cases storeBytes c m a (leBytes (2 ^ k) v) with
      | error f => rfl
      | ok m' => exact ih _ _ _

/-! ## Room under the ceiling -/

theorem length_erasePage_le (m : Memory) (pid : Nat) : (erasePage pid m).length ≤ m.length := by
  induction m with
  | nil => simp [erasePage]
  | cons q t ih =>
    simp only [erasePage, List.length_cons]
    split
    · omega
    · simp only [List.length_cons]; omega

theorem length_erasePage_lt {m : Memory} {pid : Nat} {pg : Page} (h : findPage m pid = some pg) :
    (erasePage pid m).length < m.length := by
  induction m with
  | nil => simp [findPage] at h
  | cons q t ih =>
    have hle := length_erasePage_le t pid
    simp only [erasePage]
    split
    · simp only [List.length_cons]; omega
    · rename_i hq
      have := ih (by simpa [findPage, hq] using h)
      simp only [List.length_cons]; omega

theorem length_putPage_le {m : Memory} {pg old : Page} (h : findPage m pg.id = some old) :
    (putPage m pg).length ≤ m.length := by
  rw [putPage, length_insertPage]
  exact length_erasePage_lt h

/-- A byte store to a committed page completes and commits nothing. -/
theorem storeByte_of_committed {c : Config} {m : Memory} {a : Word} (v : Byte)
    (h : isCommitted m (pageIdOf c a) = true) : ∃ m', storeByte c m a v = .ok m' ∧ m'.length ≤ m.length ∧
      (Memory.wf c m = true → m'.length = m.length) := by
  obtain ⟨pg, hp⟩ := Option.isSome_iff_exists.1 h
  refine ⟨_, by rw [storeByte, lookupPage_of_found hp], ?_, fun w => ?_⟩
  · exact length_putPage_le (old := pg) (by rw [Page.setByte_id, findPage_id hp]; exact hp)
  · exact length_putPage_present (old := pg) w (by rw [Page.setByte_id, findPage_id hp]; exact hp)

/-- A byte store to an uncommitted page commits it where one more page fits, else faults at its address (R142). -/
theorem storeByte_of_uncommitted {c : Config} {m : Memory} {a : Word} (v : Byte)
    (h : isCommitted m (pageIdOf c a) = false) :
    (capacityExceeded c m = false → ∃ m', storeByte c m a v = .ok m' ∧ m'.length ≤ m.length + 1 ∧
      (Memory.wf c m = true → m'.length = m.length + 1)) ∧
    (capacityExceeded c m = true →
      storeByte c m a v = .error { cause := .capacityExhausted, addr := a, intent := .write }) := by
  have hn : findPage m (pageIdOf c a) = none := by simpa [isCommitted] using h
  constructor
  · intro hc
    have hf : findPage (putPage m (Page.fresh (pageIdOf c a))) (pageIdOf c a) = some (Page.fresh (pageIdOf c a)) := by
      simp [findPage_putPage]
    have hl := length_putPage_absent (pg := Page.fresh (pageIdOf c a)) hn
    refine ⟨putPage (putPage m (Page.fresh (pageIdOf c a))) ((Page.fresh (pageIdOf c a)).setByte (offsetOf c a) v),
      by simp [storeByte, lookupPage, hn, hc], ?_, fun w => ?_⟩
    · rw [← hl]
      exact length_putPage_le (old := Page.fresh (pageIdOf c a)) (by simpa using hf)
    · rw [← hl]
      exact length_putPage_present (old := Page.fresh (pageIdOf c a))
        (wf_putPage w (Page.wf_fresh (pageIdOf_lt c a))) (by simpa using hf)
  · intro hc
    simp only [storeByte, lookupPage, hn, hc, if_true]
    exact congrArg _ (lookupFault_write_split c a)

theorem isCommitted_storeByte_fun {c : Config} {m m' : Memory} {a : Word} {v : Byte}
    (h : storeByte c m a v = .ok m') :
    isCommitted m' = fun p => decide (p = pageIdOf c a) || isCommitted m p := funext (isCommitted_storeByte h)

theorem isCommitted_self_fun {m : Memory} {p : Nat} (h : isCommitted m p = true) :
    (fun q => decide (q = p) || isCommitted m q) = isCommitted m := by
  funext q
  by_cases hq : q = p
  · subst hq; simp [h]
  · simp [hq]

/-- Every store keeps the canonical form of memory. -/
theorem wf_storeByte {c : Config} {m m' : Memory} {a : Word} {v : Byte} (w : Memory.wf c m = true)
    (h : storeByte c m a v = .ok m') : Memory.wf c m' = true := by
  unfold storeByte at h
  split at h
  · cases h
  · rename_i pg m₁ hl
    cases h
    rcases lookupPage_ok hl with ⟨hf, rfl⟩ | ⟨-, -, -, rfl, rfl⟩
    · exact wf_putPage w (Page.wf_setByte (offsetOf_lt c a) v (wf_findPage w hf))
    · have w' := Page.wf_fresh (pageIdOf_lt c a)
      exact wf_putPage (wf_putPage w w') (Page.wf_setByte (offsetOf_lt c a) v w')

theorem wf_storeBytes {c : Config} {m m' : Memory} {a : Word} {bs : List Byte} (w : Memory.wf c m = true)
    (h : storeBytes c m a bs = .ok m') : Memory.wf c m' = true := by
  induction bs generalizing m a with
  | nil => cases h; exact w
  | cons b t ih =>
    simp only [storeBytes] at h
    split at h
    · cases h
    · rename_i m₁ h₁
      exact ih (wf_storeByte w h₁) h

/-- Room for a store of these addresses to memory `m`: `RoomFor` of a state with this memory. -/
def roomFor (c : Config) (m : Memory) (as : List Word) : Prop :=
  pagesNeeded c (isCommitted m) as = 0 ∨
    (m.length + pagesNeeded c (isCommitted m) as) * c.pageSize ≤ c.capacity

theorem roomFor_iff (s : State) (as : List Word) : RoomFor s as ↔ roomFor s.cfg s.pages as := Iff.rfl

/-- With room for its addresses a store of bytes completes (R53, R154). -/
theorem storeBytes_of_room {c : Config} {m : Memory} {a : Word} {bs : List Byte}
    (h : roomFor c m (addrRange a bs.length)) : ∃ m', storeBytes c m a bs = .ok m' := by
  induction bs generalizing m a with
  | nil => exact ⟨m, rfl⟩
  | cons b t ih =>
    simp only [roomFor, List.length_cons, addrRange, pagesNeeded] at h
    by_cases hc : isCommitted m (pageIdOf c a) = true
    · rw [if_pos hc] at h
      obtain ⟨m', h1, h2, -⟩ := storeByte_of_committed b hc
      rw [storeBytes, h1]
      apply ih
      unfold roomFor
      rw [isCommitted_storeByte_fun h1, isCommitted_self_fun hc]
      rcases h with h | h
      · exact .inl h
      · exact .inr (Nat.le_trans (Nat.mul_le_mul_right _ (by omega)) h)
    · rw [if_neg hc] at h
      rcases h with h | h
      · omega
      · have hx : capacityExceeded c m = false := by
          simp only [capacityExceeded, decide_eq_false_iff_not, Nat.not_lt]
          exact Nat.le_trans (Nat.mul_le_mul_right _ (by omega)) h
        obtain ⟨m', h1, h2, -⟩ := (storeByte_of_uncommitted b (by simpa using hc)).1 hx
        rw [storeBytes, h1]
        apply ih
        unfold roomFor
        rw [isCommitted_storeByte_fun h1]
        exact .inr (Nat.le_trans (Nat.mul_le_mul_right _ (by omega)) h)

/-- Without room a store of bytes faults at the first address whose page cannot be committed (R154, R242). -/
theorem storeBytes_of_no_room {c : Config} {m : Memory} {a : Word} {bs : List Byte} {j : Nat}
    (w : Memory.wf c m = true) (hj : j < bs.length) (h : roomFor c m (addrRange a j))
    (hn : ¬ roomFor c m (addrRange a (j + 1))) :
    storeBytes c m a bs = .error { cause := .capacityExhausted, addr := addrAdd a j, intent := .write } := by
  induction bs generalizing m a j with
  | nil => simp at hj
  | cons b t ih =>
    by_cases hc : isCommitted m (pageIdOf c a) = true
    · obtain ⟨m', h1, -, h2⟩ := storeByte_of_committed b hc
      have hw := wf_storeByte w h1
      cases j with
      | zero => exact absurd (.inl (by simp [addrRange, pagesNeeded, hc])) hn
      | succ j =>
        rw [storeBytes, h1]
        simp only
        rw [ih hw (by simpa using hj), addrAdd_addrAdd, Nat.add_comm 1]
        · unfold roomFor at h ⊢
          rw [isCommitted_storeByte_fun h1, isCommitted_self_fun hc, h2 w]
          simpa [addrRange, pagesNeeded, hc] using h
        · unfold roomFor at hn ⊢
          rw [isCommitted_storeByte_fun h1, isCommitted_self_fun hc, h2 w]
          simpa [addrRange, pagesNeeded, hc] using hn
    · have hc' : isCommitted m (pageIdOf c a) = false := by simpa using hc
      cases j with
      | zero =>
        have hx : capacityExceeded c m = true := by
          simp only [roomFor, addrRange, pagesNeeded, hc', not_or, Nat.not_le] at hn
          simpa [capacityExceeded] using hn.2
        rw [storeBytes, (storeByte_of_uncommitted b hc').2 hx, addrAdd_zero]
      | succ j =>
        have hx : capacityExceeded c m = false := by
          simp only [roomFor, addrRange, pagesNeeded, hc'] at h
          rcases h with h | h
          · simp at h
          · simp only [capacityExceeded, decide_eq_false_iff_not, Nat.not_lt]
            exact Nat.le_trans (Nat.mul_le_mul_right _ (by simp)) h
        obtain ⟨m', h1, -, h2⟩ := (storeByte_of_uncommitted b hc').1 hx
        have hw := wf_storeByte w h1
        have key : ∀ n, m.length + (pagesNeeded c (fun p => decide (p = pageIdOf c a) || isCommitted m p)
            (addrRange (addrAdd a 1) n) + 1) = m.length + 1 + pagesNeeded c
            (fun p => decide (p = pageIdOf c a) || isCommitted m p) (addrRange (addrAdd a 1) n) := by intro n; omega
        rw [storeBytes, h1]
        simp only
        rw [ih hw (by simpa using hj), addrAdd_addrAdd, Nat.add_comm 1]
        · unfold roomFor at h ⊢
          rw [isCommitted_storeByte_fun h1, h2 w]
          simp only [addrRange, pagesNeeded, hc', Bool.false_eq_true, if_false] at h
          rcases h with h | h
          · omega
          · exact .inr (by rw [← key]; exact h)
        · unfold roomFor at hn ⊢
          rw [isCommitted_storeByte_fun h1, h2 w]
          rw [addrRange] at hn
          simp only [pagesNeeded, hc', Bool.false_eq_true, if_false, not_or] at hn
          rw [key] at hn
          intro hor
          rcases hor with h0 | h0
          · apply hn.2
            rw [h0]
            rw [roomFor] at h
            simp only [addrRange, pagesNeeded, hc', Bool.false_eq_true, if_false] at h
            rcases h with h | h
            · omega
            · exact Nat.le_trans (Nat.mul_le_mul_right _ (by omega)) h
          · exact hn.2 h0

/-! ## What a store of bytes leaves -/

/-- Every byte after a store of bytes: the stored ones; in a page it touched as before, or 0 where it committed the page; every
other as before (R154, R23). -/
theorem memView_storeBytes {c : Config} {m m' : Memory} {a : Word} {bs : List Byte} (hn : bs.length ≤ 2 ^ 64)
    (h : storeBytes c m a bs = .ok m') (x : Word) :
    memView c m' x =
      if (x - a).toNat < bs.length then bs[(x - a).toNat]?
      else if (addrRange a bs.length).any (fun y => decide (pageIdOf c y = pageIdOf c x)) then
        some ((memView c m x).getD 0)
      else memView c m x := by
  induction bs generalizing m a with
  | nil => simp only [storeBytes, Except.ok.injEq] at h; subst h; simp [addrRange]
  | cons b t ih =>
    simp only [storeBytes] at h
    split at h
    · cases h
    · rename_i m₁ h₁
      simp only [List.length_cons] at hn ⊢
      rw [ih (by omega) h, memView_storeByte h₁]
      simp only [addrRange, List.any_cons]
      by_cases hx : x = a
      · subst hx
        have h1 : ¬ (x - addrAdd x 1).toNat < t.length := by
          have : (x - addrAdd x 1).toNat = 2 ^ 64 - 1 := by
            have hx1 : x - addrAdd x 1 = -1 := by
              simp only [addrAdd]
              bv_omega
            rw [hx1]; decide
          omega
        rw [if_neg h1]
        simp
      · have hs : (x - a).toNat = (x - addrAdd a 1).toNat + 1 := by
          have hne : (x - a).toNat ≠ 0 := by
            intro h0
            apply hx
            have := addrAdd_sub a x
            rw [h0, addrAdd_zero] at this
            exact this.symm
          simp only [addrAdd]
          bv_omega
        rw [hs]
        simp only [List.getElem?_cons_succ, Nat.add_lt_add_iff_right, if_neg hx]
        split
        · rfl
        · by_cases hp : pageIdOf c x = pageIdOf c a
          · simp [hp]
          · have hp' : ¬ pageIdOf c a = pageIdOf c x := fun h => hp h.symm
            simp [hp, hp']

/-- Which pages are committed after a store of bytes. -/
theorem isCommitted_storeBytes {c : Config} {m m' : Memory} {a : Word} {bs : List Byte}
    (h : storeBytes c m a bs = .ok m') (p : Nat) :
    isCommitted m' p = ((addrRange a bs.length).any (fun y => decide (pageIdOf c y = p)) || isCommitted m p) := by
  induction bs generalizing m a with
  | nil => simp only [storeBytes, Except.ok.injEq] at h; subst h; simp [addrRange]
  | cons b t ih =>
    simp only [storeBytes] at h
    split at h
    · cases h
    · rename_i m₁ h₁
      rw [ih h, isCommitted_storeByte h₁]
      simp only [List.length_cons, addrRange, List.any_cons]
      by_cases hp : p = pageIdOf c a
      · simp [hp]
      · have hp' : ¬ pageIdOf c a = p := fun h => hp h.symm
        simp [hp, hp']

/-- The free pointer of a page, nothing where it is not committed: `State.freePointerOf` of a state with this memory. -/
def freePointerIn (m : Memory) (p : Nat) : Option Nat :=
  match findPage m p with
  | some pg => some pg.freePointer
  | none => none

theorem freePointerOf_eq (s : State) (p : Nat) : s.freePointerOf p = freePointerIn s.pages p := rfl

theorem freePointerIn_putPage (m : Memory) (pg : Page) (p : Nat) :
    freePointerIn (putPage m pg) p = if p = pg.id then some pg.freePointer else freePointerIn m p := by
  unfold freePointerIn
  rw [findPage_putPage]
  by_cases h : p = pg.id
  · rw [if_pos h, if_pos h]
  · rw [if_neg h, if_neg h]

theorem freePointerIn_isSome (m : Memory) (p : Nat) : (freePointerIn m p).isSome = isCommitted m p := by
  unfold freePointerIn isCommitted
  cases findPage m p <;> rfl

/-- A byte store moves no free pointer (R64); a page it commits has free pointer 0 (R23). -/
theorem freePointerIn_storeByte {c : Config} {m m' : Memory} {a : Word} {v : Byte}
    (h : storeByte c m a v = .ok m') (p : Nat) :
    freePointerIn m' p = if p = pageIdOf c a then some ((freePointerIn m p).getD 0) else freePointerIn m p := by
  unfold storeByte at h
  split at h
  · cases h
  · rename_i pg m₁ hl
    simp only [Except.ok.injEq] at h
    subst h
    have hid : pg.id = pageIdOf c a := findPage_id (findPage_of_lookupPage hl)
    rw [freePointerIn_putPage, Page.setByte_id, hid, Page.setByte_freePointer]
    rcases lookupPage_ok hl with ⟨hf, rfl⟩ | ⟨-, hf, -, rfl, rfl⟩
    · by_cases hp : p = pageIdOf c a
      · subst hp; simp [freePointerIn, hf]
      · simp [hp]
    · rw [freePointerIn_putPage]
      by_cases hp : p = pageIdOf c a
      · subst hp; simp [freePointerIn, hf]
      · simp [hp]

theorem freePointerIn_storeBytes {c : Config} {m m' : Memory} {a : Word} {bs : List Byte}
    (h : storeBytes c m a bs = .ok m') (p : Nat) :
    freePointerIn m' p =
      match freePointerIn m p with
      | some f => some f
      | none => if (addrRange a bs.length).any (fun y => decide (pageIdOf c y = p)) then some 0 else none := by
  induction bs generalizing m a with
  | nil =>
    simp only [storeBytes, Except.ok.injEq] at h; subst h
    cases freePointerIn m p <;> simp [addrRange]
  | cons b t ih =>
    simp only [storeBytes] at h
    split at h
    · cases h
    · rename_i m₁ h₁
      rw [ih h, freePointerIn_storeByte h₁]
      simp only [List.length_cons, addrRange, List.any_cons]
      by_cases hp : p = pageIdOf c a
      · subst hp
        cases freePointerIn m (pageIdOf c a) <;> simp
      · have hp' : ¬ pageIdOf c a = p := fun h => hp h.symm
        cases freePointerIn m p <;> simp [hp, hp']

end Sys2Proof.Machine
end

