-- ==== Sys2Proof/Laws/Sequences.lean ====
section
/-! SUPPORT. What a STORE_SEQ and a load of segments do: they complete where there is room, their occupancy update never faults,
and free pointers rise to one past the last byte stored. -/

namespace Sys2Proof.Machine

theorem addrRange_append (a : Word) (n k : Nat) : addrRange a (n + k) = addrRange a n ++ addrRange (addrAdd a n) k := by
  induction n generalizing a with
  | zero => simp [addrRange]
  | succ n ih => rw [Nat.succ_add, addrRange, addrRange, ih, addrAdd_addrAdd, Nat.add_comm 1 n]; rfl

theorem highWater_append (c : Config) (p f : Nat) (x y : List Word) :
    highWater c p f (x ++ y) = highWater c p (highWater c p f x) y := by
  induction x generalizing f with
  | nil => rfl
  | cons a t ih => exact ih _

theorem le_highWater (c : Config) (p f : Nat) (as : List Word) : f ≤ highWater c p f as := by
  induction as generalizing f with
  | nil => exact Nat.le_refl f
  | cons a t ih =>
    refine Nat.le_trans ?_ (ih _)
    split
    · exact Nat.le_max_left _ _
    · exact Nat.le_refl f

/-- Free pointers stay in their range (R22). -/
theorem highWater_le {c : Config} {p f : Nat} (h : f ≤ c.pageSize) (as : List Word) : highWater c p f as ≤ c.pageSize := by
  induction as generalizing f with
  | nil => exact h
  | cons a t ih =>
    refine ih ?_
    split
    · exact Nat.max_le.2 ⟨h, offsetOf_lt c a⟩
    · exact h

/-- Every byte stored is covered (R157). -/
theorem offset_lt_highWater {c : Config} {p f : Nat} {as : List Word} {a : Word} (ha : a ∈ as) (hp : pageIdOf c a = p) :
    offsetOf c a < highWater c p f as := by
  induction as generalizing f with
  | nil => simp at ha
  | cons b t ih =>
    rcases List.mem_cons.1 ha with rfl | ht
    · refine Nat.lt_of_lt_of_le ?_ (le_highWater c p _ t)
      rw [if_pos hp]
      exact Nat.lt_of_lt_of_le (Nat.lt_succ_self _) (Nat.le_max_right _ _)
    · exact ih ht

theorem highWater_untouched {c : Config} {p f : Nat} {as : List Word} (h : touches c as p = false) :
    highWater c p f as = f := by
  induction as generalizing f with
  | nil => rfl
  | cons a t ih =>
    simp only [touches, List.any_cons, Bool.or_eq_false_iff, decide_eq_false_iff_not] at h
    rw [highWater, if_neg h.1]
    exact ih h.2

theorem highWater_in_page {c : Config} {a : Word} {n : Nat} (h : offsetOf c a + n ≤ c.pageSize) (hn : 0 < n) (p f : Nat) :
    highWater c p f (addrRange a n) = if p = pageIdOf c a then max f (offsetOf c a + n) else f := by
  induction n generalizing a f with
  | zero => omega
  | succ n ih =>
    rw [addrRange, highWater]
    rcases Nat.eq_zero_or_pos n with rfl | hpos
    · simp only [addrRange, highWater, eq_comm]
    · have h1 : offsetOf c a + 1 < c.pageSize := by omega
      rw [ih (by rw [offsetOf_addrAdd h1]; omega) hpos, pageIdOf_addrAdd h1, offsetOf_addrAdd h1]
      by_cases hp : p = pageIdOf c a
      · rw [if_pos hp, if_pos hp, if_pos hp.symm]; omega
      · rw [if_neg hp, if_neg hp, if_neg (Ne.symm hp)]

/-- One iteration in a page pushes its free pointer up to one past what the iteration consumes (R153). -/
theorem occupyPage_spec {c : Config} {fp off rem : Nat} (ho : off < c.pageSize) (hf : fp ≤ c.pageSize) (hr : 0 < rem) :
    (occupyPage c fp off rem).1 = max fp (off + (occupyPage c fp off rem).2) ∧ 0 < (occupyPage c fp off rem).2 ∧
      (occupyPage c fp off rem).2 ≤ rem ∧ off + (occupyPage c fp off rem).2 ≤ c.pageSize := by
  unfold occupyPage
  split <;> simp only <;> omega

/-- The occupancy update of a committed range never faults; it pushes every free pointer up to one past the last byte of the range
in its page (R153, R157). -/
theorem occupancyUpdate_spec {c : Config} {m : Memory} {fuel rem : Nat} {a : Word} (w : Memory.wf c m = true)
    (hfuel : rem ≤ fuel) (h : ∀ x ∈ addrRange a rem, isCommitted m (pageIdOf c x) = true) :
    ∃ m', occupancyUpdate c m fuel a rem = .ok m' ∧
      ∀ p, freePointerIn m' p = (freePointerIn m p).map fun f => highWater c p f (addrRange a rem) := by
  induction fuel generalizing m a rem with
  | zero =>
    obtain rfl : rem = 0 := by omega
    exact ⟨m, rfl, fun p => by cases freePointerIn m p <;> rfl⟩
  | succ n ih =>
    rcases Nat.eq_zero_or_pos rem with rfl | hr
    · exact ⟨m, by simp [occupancyUpdate], fun p => by cases freePointerIn m p <;> rfl⟩
    · obtain ⟨k, rfl⟩ : ∃ k, rem = k + 1 := ⟨rem - 1, by omega⟩
      have hc := h a (by simp [addrRange])
      obtain ⟨pg, hpg⟩ := Option.isSome_iff_exists.1 hc
      have hid : pg.id = pageIdOf c a := findPage_id hpg
      have hwf := (Page.wf_iff c pg).1 (wf_findPage w hpg)
      obtain ⟨h1, h2, h3, h4⟩ := occupyPage_spec (offsetOf_lt c a) hwf.2.2 hr
      generalize ho : occupyPage c pg.freePointer (offsetOf c a) (k + 1) = o at h1 h2 h3 h4
      have hsplit : addrRange a (k + 1) = addrRange a o.2 ++ addrRange (addrAdd a o.2) (k + 1 - o.2) := by
        rw [← addrRange_append]; congr 1; omega
      have w' : Memory.wf c (putPage m { pg with freePointer := o.1 }) = true :=
        wf_putPage w (Page.wf_withFreePointer (by omega) (wf_findPage w hpg))
      obtain ⟨m', e1, e2⟩ := ih (m := putPage m { pg with freePointer := o.1 }) (a := addrAdd a o.2)
        (rem := k + 1 - o.2) w' (by omega) fun x hx => by
          rw [isCommitted_putPage, h x (by rw [hsplit]; exact List.mem_append_right _ hx), Bool.or_true]
      refine ⟨m', ?_, fun p => ?_⟩
      · rw [occupancyUpdate, if_neg (Nat.succ_ne_zero k), lookupPage_of_found hpg]
        simp only [ho]
        exact e1
      · rw [e2, freePointerIn_putPage, hsplit]
        simp only [highWater_append, highWater_in_page h4 h2, hid]
        by_cases hp : p = pageIdOf c a
        · subst hp
          simp only [if_true, freePointerIn, hpg, Option.map_some, h1]
        · simp only [if_neg hp]

/-- The occupancy update of a committed range completes, from any memory (R153). -/
theorem occupancyUpdate_completes {c : Config} {m : Memory} {fuel rem : Nat} {a : Word}
    (h : ∀ x ∈ addrRange a rem, isCommitted m (pageIdOf c x) = true) :
    ∃ m', occupancyUpdate c m fuel a rem = .ok m' ∧ ∀ p, isCommitted m' p = isCommitted m p := by
  induction fuel generalizing m a rem with
  | zero => exact ⟨m, rfl, fun _ => rfl⟩
  | succ n ih =>
    rcases Nat.eq_zero_or_pos rem with rfl | hr
    · exact ⟨m, by simp [occupancyUpdate], fun _ => rfl⟩
    · obtain ⟨k, rfl⟩ : ∃ k, rem = k + 1 := ⟨rem - 1, by omega⟩
      have hc := h a (by simp [addrRange])
      obtain ⟨pg, hpg⟩ := Option.isSome_iff_exists.1 hc
      have hid : pg.id = pageIdOf c a := findPage_id hpg
      obtain ⟨h2, h3⟩ := occupyPage_consumes (c := c) (fp := pg.freePointer) (offsetOf_lt c a) hr
      generalize ho : occupyPage c pg.freePointer (offsetOf c a) (k + 1) = o at h2 h3
      have hsplit : addrRange a (k + 1) = addrRange a o.2 ++ addrRange (addrAdd a o.2) (k + 1 - o.2) := by
        rw [← addrRange_append]; congr 1; omega
      have hsame : ∀ p, isCommitted (putPage m { pg with freePointer := o.1 }) p = isCommitted m p := fun p => by
        rw [isCommitted_putPage]
        by_cases hp : p = pageIdOf c a
        · subst hp; simp [hc]
        · simp [hid, hp]
      obtain ⟨m', e1, e2⟩ := ih (m := putPage m { pg with freePointer := o.1 }) (a := addrAdd a o.2)
        (rem := k + 1 - o.2) fun x hx => by
          rw [hsame]; exact h x (by rw [hsplit]; exact List.mem_append_right _ hx)
      refine ⟨m', ?_, fun p => by rw [e2, hsame]⟩
      rw [occupancyUpdate, if_neg (Nat.succ_ne_zero k), lookupPage_of_found hpg]
      simp only [ho]
      exact e1

theorem committed_of_storeBytes {c : Config} {m m₁ : Memory} {a : Word} {bs : List Byte}
    (h : storeBytes c m a bs = .ok m₁) : ∀ x ∈ addrRange a bs.length, isCommitted m₁ (pageIdOf c x) = true := by
  intro x hx
  rw [isCommitted_storeBytes h, Bool.or_eq_true, List.any_eq_true]
  exact .inl ⟨x, hx, by simp⟩

/-- A sequence store completes exactly where its byte stores do, and memory reads as they leave it (R154). -/
theorem storeSequence_ok {c : Config} {m m₁ : Memory} {a : Word} {bs : List Byte} (h : storeBytes c m a bs = .ok m₁) :
    ∃ m', storeSequence c m a bs = .ok m' ∧ (∀ x, memView c m' x = memView c m₁ x) ∧
      ∀ p, isCommitted m' p = isCommitted m₁ p := by
  obtain ⟨m', h1, h2⟩ := occupancyUpdate_completes (fuel := bs.length) (committed_of_storeBytes h)
  exact ⟨m', by rw [storeSequence, h]; exact h1, fun x => memView_occupancyUpdate h1 x, h2⟩

theorem storeSequence_error {c : Config} {m : Memory} {a : Word} {bs : List Byte} {f : FatalRecord} :
    storeSequence c m a bs = .error f ↔ storeBytes c m a bs = .error f := by
  cases h : storeBytes c m a bs with
  | error g => simp [storeSequence, h]
  | ok m₁ =>
    obtain ⟨m', h1, -⟩ := storeSequence_ok h
    simp [h1]

/-- What a sequence store that completes leaves in the free pointers (R153, R157). -/
theorem freePointerIn_storeSequence {c : Config} {m m' : Memory} {a : Word} {bs : List Byte} (w : Memory.wf c m = true)
    (h : storeSequence c m a bs = .ok m') (p : Nat) :
    freePointerIn m' p =
      match freePointerIn m p with
      | some f => some (highWater c p f (addrRange a bs.length))
      | none =>
        if touches c (addrRange a bs.length) p then some (highWater c p 0 (addrRange a bs.length)) else none := by
  unfold storeSequence at h
  split at h
  · cases h
  · rename_i m₁ h₁
    obtain ⟨m₂, e1, e2⟩ := occupancyUpdate_spec (wf_storeBytes w h₁) (Nat.le_refl bs.length) (committed_of_storeBytes h₁)
    obtain rfl : m₂ = m' := by simpa [e1] using h
    rw [e2, freePointerIn_storeBytes h₁]
    cases freePointerIn m p with
    | some f => rfl
    | none =>
      unfold touches
      cases (addrRange a bs.length).any fun y => decide (pageIdOf c y = p) <;> rfl

end Sys2Proof.Machine
end

