-- ==== Sys2Proof/Laws/Loader.lean ====
section
/-! SUPPORT. What the loader's writes do: with room for all segments they complete, and memory holds at each address the byte of the
last segment that covers it. -/

namespace Sys2Proof.Machine

/-! ## Room for one store after another -/

/-- The pages of these addresses, beside those already known. -/
def knownAfter (c : Config) (known : Nat → Bool) (as : List Word) : Nat → Bool := fun p => touches c as p || known p

theorem knownAfter_cons (c : Config) (known : Nat → Bool) (a : Word) (t : List Word) :
    knownAfter c known (a :: t) = knownAfter c (fun p => decide (p = pageIdOf c a) || known p) t := by
  funext p
  simp only [knownAfter, touches, List.any_cons, eq_comm (a := p)]
  cases decide (pageIdOf c a = p) <;> simp

theorem knownAfter_known {c : Config} {known : Nat → Bool} {a : Word} (h : known (pageIdOf c a) = true) (t : List Word) :
    knownAfter c known (a :: t) = knownAfter c known t := by
  funext p
  simp only [knownAfter, touches, List.any_cons]
  by_cases hp : pageIdOf c a = p
  · subst hp; simp [h]
  · simp [hp]

theorem pagesNeeded_append (c : Config) (known : Nat → Bool) (x y : List Word) :
    pagesNeeded c known (x ++ y) = pagesNeeded c known x + pagesNeeded c (knownAfter c known x) y := by
  induction x generalizing known with
  | nil => simp only [List.nil_append, pagesNeeded, Nat.zero_add]; rfl
  | cons a t ih =>
    simp only [List.cons_append, pagesNeeded]
    split
    · rename_i h; rw [ih, knownAfter_known h]
    · rw [ih, knownAfter_cons]; omega

/-- A store of bytes commits at most the pages it needs. -/
theorem storeBytes_length_le {c : Config} {m m' : Memory} {a : Word} {bs : List Byte} (h : storeBytes c m a bs = .ok m') :
    m'.length ≤ m.length + pagesNeeded c (isCommitted m) (addrRange a bs.length) := by
  induction bs generalizing m a with
  | nil => cases h; simp
  | cons b t ih =>
    simp only [storeBytes] at h
    split at h
    · cases h
    · rename_i m₁ h₁
      have := ih h
      rw [isCommitted_storeByte_fun h₁] at this
      simp only [List.length_cons, addrRange, pagesNeeded]
      by_cases hc : isCommitted m (pageIdOf c a) = true
      · obtain ⟨m₂, e1, e2, -⟩ := storeByte_of_committed b hc
        cases e1.symm.trans h₁
        rw [isCommitted_self_fun hc] at this
        rw [if_pos hc]
        omega
      · have hc' : isCommitted m (pageIdOf c a) = false := by simpa using hc
        rw [if_neg hc]
        cases hx : capacityExceeded c m with
        | true => exact absurd h₁ (by rw [(storeByte_of_uncommitted b hc').2 hx]; simp)
        | false =>
          obtain ⟨m₂, e1, e2, -⟩ := (storeByte_of_uncommitted b hc').1 hx
          cases e1.symm.trans h₁
          omega

theorem occupancyUpdate_length_le {c : Config} {m m' : Memory} {fuel : Nat} {a : Word} {rem : Nat}
    (h : occupancyUpdate c m fuel a rem = .ok m') : m'.length ≤ m.length := by
  induction fuel generalizing m a rem with
  | zero => cases h; exact Nat.le_refl _
  | succ n ih =>
    unfold occupancyUpdate at h
    split at h
    · cases h; exact Nat.le_refl _
    · split at h
      · cases h
      · rename_i pg m₁ hl
        have hf : findPage m (pageIdOf c a) = some pg := by
          rcases lookupPage_ok hl with ⟨hf, -⟩ | ⟨hw, -⟩
          · exact hf
          · cases hw
        refine Nat.le_trans (ih h) (length_putPage_le (old := pg) ?_)
        rw [findPage_id hf]
        exact hf

/-- What a sequence store that completes leaves: the bytes it stored, the pages it committed and no more (R154). -/
theorem storeSequence_spec {c : Config} {m m' : Memory} {a : Word} {bs : List Byte} (hn : bs.length ≤ 2 ^ 64)
    (h : storeSequence c m a bs = .ok m') :
    m'.length ≤ m.length + pagesNeeded c (isCommitted m) (addrRange a bs.length) ∧
    isCommitted m' = knownAfter c (isCommitted m) (addrRange a bs.length) ∧
    ∀ x, memView c m' x =
      if (x - a).toNat < bs.length then bs[(x - a).toNat]?
      else if touches c (addrRange a bs.length) (pageIdOf c x) then some ((memView c m x).getD 0)
      else memView c m x := by
  cases h₁ : storeBytes c m a bs with
  | error f => rw [storeSequence_error.2 h₁] at h; cases h
  | ok m₁ =>
    obtain ⟨m₂, e1, e2, e3⟩ := storeSequence_ok h₁
    cases e1.symm.trans h
    refine ⟨?_, ?_, fun x => by rw [e2, memView_storeBytes hn h₁]; rfl⟩
    · unfold storeSequence at h
      rw [h₁] at h
      exact Nat.le_trans (occupancyUpdate_length_le h) (storeBytes_length_le h₁)
    · funext p
      rw [e3, isCommitted_storeBytes h₁]
      rfl

/-! ## Segments -/

/-- The addresses a selected segment is written to. -/
def ProgramHeader.addresses (img : List Byte) (h : ProgramHeader) : List Word :=
  if h.selected then addrRange (BitVec.ofNat 64 h.vaddr) (segmentBytes img h).length else []

/-- The byte a segment puts at an address, where it covers it. -/
def ProgramHeader.byteFor (img : List Byte) (h : ProgramHeader) (x : Word) : Option Byte :=
  if h.selected then (segmentBytes img h)[(x - BitVec.ofNat 64 h.vaddr).toNat]? else none

/-- The byte the last of the segments that cover an address puts there (R194). -/
def segmentsByte (img : List Byte) (x : Word) : List ProgramHeader → Option Byte
  | [] => none
  | h :: t =>
    match segmentsByte img x t with
    | some b => some b
    | none => h.byteFor img x

theorem segmentBytes_length_le (img : List Byte) (h : ProgramHeader) : (segmentBytes img h).length ≤ h.filesz := by
  simp [segmentBytes]

theorem touches_append (c : Config) (x y : List Word) (p : Nat) : touches c (x ++ y) p = (touches c x p || touches c y p) := by
  simp [touches]

theorem loadSegments_of_room {c : Config} {img : List Byte} {m : Memory} {hs : List ProgramHeader}
    (hf : ∀ h ∈ hs, h.filesz ≤ 2 ^ 64) (hr : roomFor c m (hs.flatMap (·.addresses img))) :
    ∃ m', loadSegments c img m hs = .ok m' ∧ ∀ x, memView c m' x =
      match segmentsByte img x hs with
      | some b => some b
      | none =>
        if touches c (hs.flatMap (·.addresses img)) (pageIdOf c x) then some ((memView c m x).getD 0) else memView c m x := by
  induction hs generalizing m with
  | nil => exact ⟨m, rfl, fun x => rfl⟩
  | cons h t ih =>
    have hft := fun q hq => hf q (List.mem_cons_of_mem h hq)
    by_cases hsel : h.selected = true
    · have hn : (segmentBytes img h).length ≤ 2 ^ 64 :=
        Nat.le_trans (segmentBytes_length_le img h) (hf h (by simp))
      have ha : h.addresses img = addrRange (BitVec.ofNat 64 h.vaddr) (segmentBytes img h).length := by
        rw [ProgramHeader.addresses, if_pos hsel]
      rw [List.flatMap_cons] at hr
      have hr' := hr
      rw [roomFor, pagesNeeded_append] at hr'
      have hr1 : roomFor c m (addrRange (BitVec.ofNat 64 h.vaddr) (segmentBytes img h).length) := by
        rw [← ha]
        rcases hr' with h0 | h0
        · exact .inl (by omega)
        · exact .inr (Nat.le_trans (Nat.mul_le_mul_right _ (by omega)) h0)
      obtain ⟨m₀, hm₀⟩ := storeBytes_of_room hr1
      obtain ⟨m₁, hm₁, -⟩ := storeSequence_ok hm₀
      obtain ⟨l1, l2, l3⟩ := storeSequence_spec hn hm₁
      have hr2 : roomFor c m₁ (t.flatMap (·.addresses img)) := by
        rw [roomFor, l2, ← ha]
        rw [← ha] at l1
        rcases hr' with h0 | h0
        · exact .inl (by omega)
        · exact .inr (Nat.le_trans (Nat.mul_le_mul_right _ (by omega)) h0)
      obtain ⟨m', e1, e2⟩ := ih hft hr2
      refine ⟨m', by rw [loadSegments, if_pos hsel, hm₁]; exact e1, fun x => ?_⟩
      rw [e2, l3, segmentsByte]
      cases segmentsByte img x t with
      | some b => rfl
      | none =>
        simp only [List.flatMap_cons, touches_append, ProgramHeader.byteFor, if_pos hsel, ← ha]
        by_cases hx : (x - BitVec.ofNat 64 h.vaddr).toNat < (segmentBytes img h).length
        · rw [if_pos hx, List.getElem?_eq_getElem hx]
          simp
        · rw [if_neg hx, List.getElem?_eq_none (Nat.not_lt.1 hx)]
          cases touches c (h.addresses img) (pageIdOf c x) <;>
            cases touches c (t.flatMap (·.addresses img)) (pageIdOf c x) <;> simp
    · have ha : h.addresses img = [] := by rw [ProgramHeader.addresses, if_neg hsel]
      rw [List.flatMap_cons, ha, List.nil_append] at hr
      obtain ⟨m', e1, e2⟩ := ih hft hr
      refine ⟨m', by rw [loadSegments, if_neg hsel]; exact e1, fun x => ?_⟩
      rw [e2, segmentsByte]
      cases segmentsByte img x t with
      | some b => rfl
      | none => simp only [List.flatMap_cons, ha, List.nil_append, ProgramHeader.byteFor, if_neg hsel]

/-! ## Free pointers, and no room -/

/-- What a load that completes leaves in the free pointers (R193). -/
theorem freePointerIn_loadSegments {c : Config} {img : List Byte} {m m' : Memory} {hs : List ProgramHeader}
    (w : Memory.wf c m = true) (hg : m.length * c.pageSize ≤ c.capacity)
    (h : loadSegments c img m hs = .ok m') (p : Nat) : freePointerIn m' p =
        match freePointerIn m p with
        | some f => some (highWater c p f (hs.flatMap (·.addresses img)))
        | none => if touches c (hs.flatMap (·.addresses img)) p then some (highWater c p 0 (hs.flatMap (·.addresses img))) else none := by
  induction hs generalizing m with
  | nil => cases h; cases h0 : freePointerIn m' p <;> rfl
  | cons q t ih =>
    simp only [loadSegments] at h
    rw [List.flatMap_cons]
    split at h
    · rename_i hs
      have ha : q.addresses img = addrRange (BitVec.ofNat 64 q.vaddr) (segmentBytes img q).length := by
        rw [ProgramHeader.addresses, if_pos hs]
      split at h
      · cases h
      · rename_i m₁ hm₁
        have hk := (storeSequence_keeps hm₁).good ⟨w, hg⟩
        rw [ih hk.1 hk.2 h, freePointerIn_storeSequence w hm₁, ← ha]
        cases freePointerIn m p with
        | some f => simp only [highWater_append]
        | none =>
          simp only [touches_append, highWater_append]
          cases ht : touches c (q.addresses img) p with
          | true => simp
          | false => simp [highWater_untouched ht]
    · rename_i hs
      have ha : q.addresses img = [] := by rw [ProgramHeader.addresses, if_neg hs]
      rw [ha, List.nil_append]
      exact ih w hg h

/-- A store of bytes commits exactly the pages it needs. -/
theorem storeBytes_length {c : Config} {m m' : Memory} {a : Word} {bs : List Byte} (w : Memory.wf c m = true)
    (h : storeBytes c m a bs = .ok m') :
    m'.length = m.length + pagesNeeded c (isCommitted m) (addrRange a bs.length) := by
  induction bs generalizing m a with
  | nil => cases h; simp [addrRange, pagesNeeded]
  | cons b t ih =>
    simp only [storeBytes] at h
    split at h
    · cases h
    · rename_i m₁ h₁
      have := ih (wf_storeByte w h₁) h
      rw [isCommitted_storeByte_fun h₁] at this
      simp only [List.length_cons, addrRange, pagesNeeded]
      by_cases hc : isCommitted m (pageIdOf c a) = true
      · obtain ⟨m₂, e1, -, e2⟩ := storeByte_of_committed b hc
        cases e1.symm.trans h₁
        have e2 := e2 w
        rw [isCommitted_self_fun hc] at this
        rw [if_pos hc]
        omega
      · have hc' : isCommitted m (pageIdOf c a) = false := by simpa using hc
        rw [if_neg hc]
        cases hx : capacityExceeded c m with
        | true => exact absurd h₁ (by rw [(storeByte_of_uncommitted b hc').2 hx]; simp)
        | false =>
          obtain ⟨m₂, e1, -, e2⟩ := (storeByte_of_uncommitted b hc').1 hx
          cases e1.symm.trans h₁
          have e2 := e2 w
          omega

theorem occupancyUpdate_length {c : Config} {m m' : Memory} {fuel : Nat} {a : Word} {rem : Nat} (w : Memory.wf c m = true)
    (h : occupancyUpdate c m fuel a rem = .ok m') : m'.length = m.length := by
  induction fuel generalizing m a rem with
  | zero => cases h; rfl
  | succ n ih =>
    unfold occupancyUpdate at h
    split at h
    · cases h; rfl
    · split at h
      · cases h
      · rename_i pg m₁ hl
        have hf : findPage m (pageIdOf c a) = some pg := by
          rcases lookupPage_ok hl with ⟨hf, -⟩ | ⟨hw, -⟩
          · exact hf
          · cases hw
        have hw := wf_findPage w hf
        have hid : pg.id = pageIdOf c a := findPage_id hf
        rw [ih (wf_putPage w (Page.wf_withFreePointer (occupyPage_le ((Page.wf_iff c pg).1 hw).2.2 (offsetOf_lt c a)) hw)) h]
        exact length_putPage_present w (old := pg) (by rw [← hid] at hf; exact hf)

theorem addrRange_take (a : Word) (n j : Nat) (h : j ≤ n) : (addrRange a n).take j = addrRange a j := by
  obtain ⟨k, rfl⟩ : ∃ k, n = j + k := ⟨n - j, by omega⟩
  rw [addrRange_append, List.take_append_of_le_length (by rw [addrRange_length]), List.take_of_length_le (by rw [addrRange_length])]

theorem addrRange_get (a : Word) (n j : Nat) (h : j < n) : (addrRange a n)[j]? = some (addrAdd a j) := by
  induction n generalizing a j with
  | zero => omega
  | succ n ih =>
    cases j with
    | zero => simp [addrRange]
    | succ j => rw [addrRange, List.getElem?_cons_succ, ih _ _ (by omega), addrAdd_addrAdd, Nat.add_comm]

/-- Without room the load faults at the first of its addresses whose page cannot be committed (R197). -/
theorem loadSegments_no_room {c : Config} {img : List Byte} {m : Memory} {hs : List ProgramHeader} {j : Nat} {x : Word}
    (w : Memory.wf c m = true)
    (hg : m.length * c.pageSize ≤ c.capacity)
    (hx : (hs.flatMap (·.addresses img))[j]? = some x)
    (h1 : roomFor c m ((hs.flatMap (·.addresses img)).take j))
    (h2 : ¬ roomFor c m ((hs.flatMap (·.addresses img)).take (j + 1)))
    (hf : ∀ h ∈ hs, h.filesz ≤ 2 ^ 64) :
    loadSegments c img m hs = .error ⟨.capacityExhausted, x, .write⟩ := by
  induction hs generalizing m j with
  | nil => simp at hx
  | cons q t ih =>
    rw [List.flatMap_cons] at hx h1 h2
    rw [loadSegments]
    by_cases hs : q.selected = true
    · have ha : q.addresses img = addrRange (BitVec.ofNat 64 q.vaddr) (segmentBytes img q).length := by
        rw [ProgramHeader.addresses, if_pos hs]
      rw [ha] at hx h1 h2
      rw [if_pos hs]
      have hl := addrRange_length (BitVec.ofNat 64 q.vaddr) (segmentBytes img q).length
      by_cases hj : j < (segmentBytes img q).length
      · rw [List.take_append_of_le_length (by omega), addrRange_take _ _ _ (by omega)] at h1 h2
        rw [storeSequence_error.2 (storeBytes_of_no_room w hj h1 h2)]
        rw [List.getElem?_append_left (by omega), addrRange_get _ _ _ hj] at hx
        cases hx; rfl
      · obtain ⟨i, rfl⟩ : ∃ i, j = (segmentBytes img q).length + i := ⟨j - (segmentBytes img q).length, by omega⟩
        have tk : ∀ i, (addrRange (BitVec.ofNat 64 q.vaddr) (segmentBytes img q).length ++
            t.flatMap (·.addresses img)).take ((segmentBytes img q).length + i) =
            addrRange (BitVec.ofNat 64 q.vaddr) (segmentBytes img q).length ++
              (t.flatMap (·.addresses img)).take i := by
          intro i
          rw [List.take_append, List.take_of_length_le (by omega), hl, Nat.add_sub_cancel_left]
        rw [tk] at h1
        rw [Nat.add_assoc, tk] at h2
        rw [List.getElem?_append_right (by omega), hl, Nat.add_sub_cancel_left] at hx
        have h1' := h1
        rw [roomFor, pagesNeeded_append] at h1'
        rw [roomFor, pagesNeeded_append] at h2
        have hr1 : roomFor c m (addrRange (BitVec.ofNat 64 q.vaddr) (segmentBytes img q).length) := by
          rcases h1' with h0 | h0
          · exact .inl (by omega)
          · exact .inr (Nat.le_trans (Nat.mul_le_mul_right _ (by omega)) h0)
        obtain ⟨m₀, hm₀⟩ := storeBytes_of_room hr1
        obtain ⟨m₁, hm₁, -⟩ := storeSequence_ok hm₀
        have hn : (segmentBytes img q).length ≤ 2 ^ 64 := Nat.le_trans (segmentBytes_length_le img q) (hf q (by simp))
        obtain ⟨-, l2, -⟩ := storeSequence_spec hn hm₁
        have hk := (storeSequence_keeps hm₁).good ⟨w, hg⟩
        have hlen : m₁.length = m.length +
            pagesNeeded c (isCommitted m) (addrRange (BitVec.ofNat 64 q.vaddr) (segmentBytes img q).length) := by
          have := hm₁
          unfold storeSequence at this
          rw [hm₀] at this
          rw [occupancyUpdate_length (wf_storeBytes w hm₀) this, storeBytes_length w hm₀]
        rw [hm₁]
        refine ih hk.1 hk.2 hx ?_ ?_ fun h hh => hf h (List.mem_cons_of_mem _ hh)
        · rw [roomFor, l2, hlen]
          rcases h1' with h0 | h0
          · exact .inl (by omega)
          · exact .inr (by rw [Nat.add_assoc]; exact h0)
        · rw [roomFor, l2, hlen]
          rintro (h0 | h0)
          · apply h2
            rw [h0]
            rcases hr1 with h3 | h3
            · exact .inl (by omega)
            · exact .inr (by simpa using h3)
          · exact h2 (.inr (by rw [← Nat.add_assoc]; exact h0))
    · have ha : q.addresses img = [] := by rw [ProgramHeader.addresses, if_neg hs]
      rw [ha, List.nil_append] at hx h1 h2
      rw [if_neg hs]
      exact ih w hg hx h1 h2 fun h hh => hf h (List.mem_cons_of_mem _ hh)

/-! ## The image -/

/-- The program-header table, by index (R96). -/
theorem programHeadersFrom_eq (img : List Byte) (o n : Nat) : programHeadersFrom img o n =
    (List.range n).map fun k => programHeaderAt img (o + k * 56) := by
  induction n generalizing o with
  | zero => rfl
  | succ n ih =>
    rw [programHeadersFrom, ih, List.range_succ_eq_map]
    simp only [List.map_cons, List.map_map, Nat.zero_mul, Nat.add_zero]
    congr 1
    apply List.map_congr_left
    intro k _
    simp only [Function.comp]
    congr 1
    rw [Nat.succ_mul]; omega

end Sys2Proof.Machine
end

