-- ==== Sys2Proof/Laws/Exec.lean ====
section
/-! SUPPORT. Once, what a command and what a step can do: every case of the state it leaves, with what keeps memory good and which
fault it can take. Whole-machine statements are read off from these cases. -/

namespace Sys2Proof.Machine

/-! ## The faults of the operations -/

/-- The record of a failed READ lookup (R53, R243). -/
def IsPageFault (f : FatalRecord) : Prop := f.cause = .pageFault ∧ f.intent = .read

/-- The record of a failed WRITE lookup, or of the next unoccupied address (R53, R126, R243). -/
def IsCapacityFault (f : FatalRecord) : Prop := f.cause = .capacityExhausted ∧ f.intent = .write

theorem lookupPage_read_error {c : Config} {m : Memory} {pid off : Nat} {f : FatalRecord}
    (h : lookupPage c m pid off .read = .error f) : IsPageFault f := by
  obtain ⟨-, rfl, -⟩ := lookupPage_error h
  exact ⟨rfl, rfl⟩

theorem lookupPage_write_error {c : Config} {m : Memory} {pid off : Nat} {f : FatalRecord}
    (h : lookupPage c m pid off .write = .error f) : IsCapacityFault f := by
  obtain ⟨-, rfl, -⟩ := lookupPage_error h
  exact ⟨rfl, rfl⟩

theorem loadBytes_error {c : Config} {m : Memory} {a : Word} {n : Nat} {f : FatalRecord}
    (h : loadBytes c m a n = .error f) : IsPageFault f := by
  induction n generalizing a with
  | zero => cases h
  | succ n ih =>
    simp only [loadBytes] at h
    split at h
    · rename_i g hg
      cases h
      unfold loadByte at hg
      split at hg
      · rename_i hl; cases hg; exact lookupPage_read_error hl
      · cases hg
    · split at h
      · rename_i hg; cases h; exact ih hg
      · cases h

theorem loadWidth_error {c : Config} {m : Memory} {w : Width} {a : Word} {f : FatalRecord}
    (h : loadWidth c m w a = .error f) : IsPageFault f := by
  rw [loadWidth, loadN_eq_loadBytes] at h
  split at h
  · rename_i hg; cases h; exact loadBytes_error hg
  · cases h

theorem loadByte_error {c : Config} {m : Memory} {a : Word} {f : FatalRecord} (h : loadByte c m a = .error f) :
    IsPageFault f := loadBytes_error (c := c) (m := m) (a := a) (n := 1) (by simp [loadBytes, h])

theorem storeBytes_error {c : Config} {m : Memory} {a : Word} {bs : List Byte} {f : FatalRecord}
    (h : storeBytes c m a bs = .error f) : IsCapacityFault f := by
  induction bs generalizing m a with
  | nil => cases h
  | cons b t ih =>
    simp only [storeBytes] at h
    split at h
    · rename_i g hg
      cases h
      unfold storeByte at hg
      split at hg
      · rename_i hl; cases hg; exact lookupPage_write_error hl
      · cases hg
    · exact ih h

theorem storeByte_eq_storeBytes (c : Config) (m : Memory) (a : Word) (v : Byte) :
    storeByte c m a v = storeBytes c m a [v] := by
  simp only [storeBytes]
  cases storeByte c m a v <;> rfl

theorem storeWidth_eq_storeBytes (c : Config) (m : Memory) (w : Width) (a d : Word) :
    storeWidth c m w a d = storeBytes c m a (leBytes (Width.bytes w) (storeData w d)) := storeN_eq_storeBytes c m _ a _

theorem storeSequence_isCapacityFault {c : Config} {m : Memory} {a : Word} {bs : List Byte} {f : FatalRecord}
    (h : storeSequence c m a bs = .error f) : IsCapacityFault f := storeBytes_error (storeSequence_error.1 h)

theorem loadSegments_error {c : Config} {img : List Byte} {m : Memory} {hs : List ProgramHeader} {f : FatalRecord}
    (h : loadSegments c img m hs = .error f) : IsCapacityFault f := by
  induction hs generalizing m with
  | nil => cases h
  | cons q t ih =>
    simp only [loadSegments] at h
    split at h
    · split at h
      · rename_i hg; cases h; exact storeSequence_isCapacityFault hg
      · exact ih h
    · exact ih h

theorem nextUnoccupied_error {c : Config} {m : Memory} {f : FatalRecord} (h : nextUnoccupied c m = .error f) :
    IsCapacityFault f := by
  unfold nextUnoccupied at h
  split at h
  · cases h
  · split at h
    · cases h
    · split at h
      · cases h; exact ⟨rfl, rfl⟩
      · cases h

theorem runKernelProg_error {c : Config} {p : KernelProg} {m : Memory} {f : FatalRecord}
    (h : runKernelProg c m p = .error f) : IsPageFault f ∨ IsCapacityFault f := by
  induction p generalizing m with
  | next pc ks => cases h
  | kernelFault k => cases h
  | load w a k ih =>
    simp only [runKernelProg] at h
    split at h
    · rename_i hg; cases h; exact .inl (loadWidth_error hg)
    · exact ih _ h
  | store w a d k ih =>
    simp only [runKernelProg] at h
    split at h
    · rename_i hg; cases h; rw [storeWidth_eq_storeBytes] at hg; exact .inr (storeBytes_error hg)
    · exact ih h
  | loadSeq a l k ih =>
    simp only [runKernelProg] at h
    split at h
    · rename_i hg; cases h; exact .inl (loadBytes_error hg)
    · exact ih _ h
  | storeSeq a b k ih =>
    simp only [runKernelProg] at h
    split at h
    · rename_i hg; cases h; exact .inr (storeSequence_isCapacityFault hg)
    · exact ih h

theorem cycle_fatal {K : Kernel} {s : State} {f : FatalRecord} (h : cycle K s = .fatal f) :
    IsPageFault f ∨ IsCapacityFault f := by
  unfold cycle fetchWord at h
  split at h
  · rename_i g hg
    cases h
    split at hg
    · rename_i hl; cases hg; exact .inl (loadWidth_error hl)
    · cases hg
  · split at h
    · rename_i hg; cases h; exact runKernelProg_error hg
    · cases h
    · cases h

/-! ## Free pointers -/

/-- No free pointer of a committed page moves. -/
def KeepsFreePointers (m m' : Memory) : Prop := ∀ p f, freePointerIn m p = some f → freePointerIn m' p = some f

theorem storeBytes_keepsFreePointers {c : Config} {m m' : Memory} {a : Word} {bs : List Byte}
    (h : storeBytes c m a bs = .ok m') : KeepsFreePointers m m' := by
  intro p f hp
  rw [freePointerIn_storeBytes h, hp]

theorem lookupPage_keepsFreePointers {c : Config} {m m' : Memory} {pid off : Nat} {i : Intent} {pg : Page}
    (h : lookupPage c m pid off i = .ok (pg, m')) : KeepsFreePointers m m' := by
  intro p f hp
  rcases lookupPage_ok h with ⟨-, rfl⟩ | ⟨-, hn, -, -, rfl⟩
  · exact hp
  · rw [freePointerIn_putPage]
    by_cases hpid : p = pid
    · subst hpid; simp [freePointerIn, hn] at hp
    · rw [Page.fresh_id, if_neg hpid]; exact hp

/-! ## What a command can do -/

/-- Every outcome of a command in a state that is not fatal. -/
inductive Effect (i : Instr) (s : State) : Host.Outcome State Fault Refusal → Prop where
  /-- it only answers -/
  | answers (r : Response) : Effect i s (.next (s.answer r))
  /-- it changes the pages, and answers -/
  | stores (m : Memory) (r : Response) (hi : onlyReads i = false) (hm : KeepsMemory s.cfg s.pages m)
      (hf : KeepsFreePointers s.pages m ∨ MovesFreePointers i) : Effect i s (.next ((s.withPages m).answer r))
  /-- it takes a fatal fault -/
  | faults (f : FatalRecord)
      (hf : (IsPageFault f ∧ mayPageFault i = true) ∨ (IsCapacityFault f ∧ mayExhaustCapacity i = true)) :
      Effect i s (.next (s.raiseFatal f))
  /-- SET_PC -/
  | setsPc (d : Word) (hi : i = .setPc d) : Effect i s (.next (({ s with pc := d } : State).answer okDone))
  /-- a completed cycle of RUN_STEP -/
  | steps (m : Memory) (pc : Word) (ks : KState) (hi : i = .runStep) (hm : KeepsMemory s.cfg s.pages m) :
      Effect i s (.next ((s.writeBack m pc ks).answer (statusOnly .stepped)))
  /-- a Simple run begins -/
  | begins (x : Bool) (hi : i = .runToCompletion 0 x) : Effect i s (.next (s.beginRun .simple x))
  /-- a Disabled run -/
  | idles (x : Bool) (run : Run) (hi : i = .runToCompletion 2 x) (hrun : (s.beginRun .disabled x).run = some run) :
      Effect i s (.next ((s.beginRun .disabled x).endRun run okDone))
  /-- LOAD_ELF waits for the host -/
  | waits (hi : i = .loadElf .pending) : Effect i s (.fault .hostFilePending)

theorem Effect.of_answerFrom {α : Type} {i : Instr} {s : State} {r : Except FatalRecord α} {resp : α → Response}
    (hf : ∀ f, r = .error f →
      (IsPageFault f ∧ mayPageFault i = true) ∨ (IsCapacityFault f ∧ mayExhaustCapacity i = true)) :
    Effect i s (answerFrom s r resp) := by
  cases r with
  | ok v => exact .answers _
  | error f => exact .faults f (hf f rfl)

theorem Effect.of_storeThrough {i : Instr} {s : State} {r : Except FatalRecord Memory} {resp : Response}
    (hi : onlyReads i = false) (hm : ∀ m, r = .ok m → KeepsMemory s.cfg s.pages m)
    (hp : ∀ m, r = .ok m → KeepsFreePointers s.pages m ∨ MovesFreePointers i)
    (hf : ∀ f, r = .error f →
      (IsPageFault f ∧ mayPageFault i = true) ∨ (IsCapacityFault f ∧ mayExhaustCapacity i = true)) :
    Effect i s (storeThrough s r resp) := by
  cases r with
  | ok m => exact .stores m _ hi (hm m rfl) (hp m rfl)
  | error f => exact .faults f (hf f rfl)

theorem pageOperand_error {s : State} {p : Word} {f : FatalRecord} (h : pageOperand s p = .error f) : IsPageFault f := by
  unfold pageOperand at h
  split at h
  · rename_i hl; cases h; exact lookupPage_read_error hl
  · cases h

theorem pageOperand_ok {s : State} {p : Word} {pg : Page} (h : pageOperand s p = .ok pg) :
    findPage s.pages (pageIdOperand s.cfg p) = some pg := by
  unfold pageOperand at h
  split at h
  · cases h
  · rename_i hl
    cases h
    rcases lookupPage_ok hl with ⟨hf, -⟩ | ⟨hw, -⟩
    · exact hf
    · cases hw

theorem setFreePointer_error {s : State} {p v : Word} {f : FatalRecord} (h : setFreePointer s p v = .error f) :
    IsPageFault f := by
  unfold setFreePointer at h
  split at h
  · rename_i hl; cases h; exact pageOperand_error hl
  · cases h

theorem setFreePointer_keeps {s : State} {p v : Word} {m : Memory} (hv : v.toNat ≤ s.cfg.pageSize)
    (h : setFreePointer s p v = .ok m) : KeepsMemory s.cfg s.pages m := by
  unfold setFreePointer at h
  split at h
  · cases h
  · rename_i pg hl
    cases h
    have hfp := pageOperand_ok hl
    have hid : pg.id = pageIdOperand s.cfg p := findPage_id hfp
    refine putPage_keeps (pg := { pg with freePointer := v.toNat }) hfp hid fun g => ?_
    exact Page.wf_withFreePointer hv (wf_findPage g.1 hfp)

theorem storeByteCmd_keeps {s : State} {m : Memory} {a : Word} {v : Byte} (h : storeByte s.cfg s.pages a v = .ok m) :
    KeepsMemory s.cfg s.pages m ∧ KeepsFreePointers s.pages m := by
  refine ⟨storeByte_keeps h, ?_⟩
  rw [storeByte_eq_storeBytes] at h
  exact storeBytes_keepsFreePointers h

theorem Effect.of_storeWidth {i : Instr} {s : State} {w : Width} {a d : Word} {resp : Response}
    (hi : onlyReads i = false) (he : mayExhaustCapacity i = true) :
    Effect i s (storeThrough s (storeWidth s.cfg s.pages w a d) resp) := by
  refine .of_storeThrough hi (fun m h => storeWidth_keeps h) (fun m h => .inl ?_) fun f h => .inr ⟨?_, he⟩
  · rw [storeWidth_eq_storeBytes] at h; exact storeBytes_keepsFreePointers h
  · rw [storeWidth_eq_storeBytes] at h; exact storeBytes_error h

theorem runStepWith_effect (K : Kernel) (s : State) : Effect .runStep s (runStepWith K s) := by
  unfold runStepWith
  split
  · exact .answers _
  · rcases h : cycle K s with t | ⟨k, t⟩ | f
    · rcases cycle_cases K s with ⟨m, pc, ks, hm, hc⟩ | ⟨k, m, -, hc⟩ | ⟨f, hc⟩
      · cases h.symm.trans hc; exact .steps m pc ks rfl hm
      · cases h.symm.trans hc
      · cases h.symm.trans hc
    · rcases cycle_cases K s with ⟨m, pc, ks, -, hc⟩ | ⟨k, m, hm, hc⟩ | ⟨f, hc⟩
      · cases h.symm.trans hc
      · cases h.symm.trans hc; exact .stores m _ rfl hm (.inr (.inr (.inr (.inr rfl))))
      · cases h.symm.trans hc
    · exact .faults f ((cycle_fatal h).imp (fun h => ⟨h, rfl⟩) fun h => ⟨h, rfl⟩)

theorem execRunToCompletion_effect {s : State} (h : s.fatal = none) (m : BitVec 2) (x : Bool) :
    Effect (.runToCompletion m x) s (execRunToCompletion m x s) := by
  rw [execRunToCompletion, unlessFatal_of_safe h]
  have hm : m = 0 ∨ m = 1 ∨ m = 2 ∨ m = 3 := by
    have := m.isLt
    simp only [BitVec.toNat_eq]
    simp
    omega
  rcases hm with rfl | rfl | rfl | rfl
  · exact .begins x rfl
  · exact .answers _
  · exact .idles x _ rfl rfl
  · exact .answers _

/-- What a command can do (R240, R241, R250, and the rules of each family). -/
theorem exec_effect {s : State} (h : s.fatal = none) (i : Instr) : Effect i s (exec i s) := by
  cases i with
  | loadByte a =>
    simp only [exec, execLoadByte, unlessFatal_of_safe h]
    exact .of_answerFrom fun f hf => .inl ⟨loadByte_error hf, rfl⟩
  | loadTwo a =>
    simp only [exec, execLoadTwo, unlessFatal_of_safe h]
    exact .of_answerFrom fun f hf => .inl ⟨loadWidth_error hf, rfl⟩
  | loadFour a =>
    simp only [exec, execLoadFour, unlessFatal_of_safe h]
    exact .of_answerFrom fun f hf => .inl ⟨loadWidth_error hf, rfl⟩
  | loadEight a =>
    simp only [exec, execLoadEight, unlessFatal_of_safe h]
    exact .of_answerFrom fun f hf => .inl ⟨loadWidth_error hf, rfl⟩
  | storeByte a d =>
    simp only [exec, execStoreByte, unlessFatal_of_safe h]
    refine .of_storeThrough rfl (fun m hm => (storeByteCmd_keeps hm).1) (fun m hm => .inl (storeByteCmd_keeps hm).2)
      fun f hf => .inr ⟨?_, rfl⟩
    rw [storeByte_eq_storeBytes] at hf
    exact storeBytes_error hf
  | storeTwo a d =>
    simp only [exec, execStoreTwo, unlessFatal_of_safe h]
    exact .of_storeWidth rfl rfl
  | storeFour a d =>
    simp only [exec, execStoreFour, unlessFatal_of_safe h]
    exact .of_storeWidth rfl rfl
  | storeEight a d =>
    simp only [exec, execStoreEight, unlessFatal_of_safe h]
    exact .of_storeWidth rfl rfl
  | loadSeq a l =>
    simp only [exec, execLoadSeq, unlessFatal_of_safe h]
    exact .of_answerFrom fun f hf => .inl ⟨loadBytes_error hf, rfl⟩
  | storeSeq a l b =>
    simp only [exec, execStoreSeq, unlessFatal_of_safe h]
    exact .of_storeThrough rfl (fun m hm => storeSequence_keeps hm) (fun m _ => .inr (.inl ⟨a, l, b, rfl⟩))
      fun f hf => .inr ⟨storeSequence_isCapacityFault hf, rfl⟩
  | nextBlock =>
    simp only [exec, execNextBlock, unlessFatal_of_safe h]
    exact .of_answerFrom fun f hf => .inr ⟨nextUnoccupied_error hf, rfl⟩
  | loadElf g =>
    simp only [exec, execLoadElf, unlessFatal_of_safe h]
    cases g with
    | pending => exact .waits rfl
    | cannotOpen => exact .answers _
    | image img =>
      simp only [loadImage]
      split
      · exact .answers _
      · exact .of_storeThrough rfl (fun m hm => loadSegments_keeps hm) (fun m _ => .inr (.inr (.inl ⟨_, rfl⟩)))
          fun f hf => .inr ⟨loadSegments_error hf, rfl⟩
  | bsGetAddress p o f =>
    simp only [exec, execBsGetAddress, unlessFatal_of_safe h]
    split
    · exact .answers _
    · cases f with
      | true =>
        refine .of_storeThrough rfl (fun m hm => ?_) (fun m hm => .inl ?_) fun f hf => .inr ⟨?_, rfl⟩
        all_goals unfold resolveAddress at *
        · split at hm
          · cases hm
          · rename_i hl; cases hm; exact lookupPage_keeps (pageIdOperand_lt s.cfg p) hl
        · split at hm
          · cases hm
          · rename_i hl; cases hm; exact lookupPage_keepsFreePointers hl
        · split at hf
          · rename_i hl; cases hf; exact lookupPage_write_error hl
          · cases hf
      | false =>
        simp only [resolveAddress, intentOfFlag, Bool.false_eq_true, if_false]
        cases hl : lookupPage s.cfg s.pages (pageIdOperand s.cfg p) o.toNat .read with
        | error f => exact .faults f (.inl ⟨lookupPage_read_error hl, rfl⟩)
        | ok r =>
          obtain ⟨pg, m⟩ := r
          have hm : m = s.pages := by
            rcases lookupPage_ok hl with ⟨-, hm⟩ | ⟨hw, -⟩
            · exact hm
            · cases hw
          subst hm
          exact .answers _
  | bsGetPage p =>
    simp only [exec, execBsGetPage, unlessFatal_of_safe h]
    exact .of_answerFrom fun f hf => .inl ⟨lookupPage_read_error hf, rfl⟩
  | bsFits o z =>
    simp only [exec, execBsFits, unlessFatal_of_safe h]
    exact .answers _
  | bsNextUnocc =>
    simp only [exec, execBsNextUnocc, unlessFatal_of_safe h]
    exact .of_answerFrom fun f hf => .inr ⟨nextUnoccupied_error hf, rfl⟩
  | pgGetFp p =>
    simp only [exec, execPgGetFp, unlessFatal_of_safe h]
    exact .of_answerFrom fun f hf => .inl ⟨pageOperand_error hf, rfl⟩
  | pgSetFp p v =>
    simp only [exec, execPgSetFp, unlessFatal_of_safe h]
    split
    · exact .answers _
    · rename_i hv
      exact .of_storeThrough rfl (fun m hm => setFreePointer_keeps (Nat.not_lt.1 hv) hm)
        (fun m _ => .inr (.inr (.inr (.inl ⟨p, v, rfl⟩)))) fun f hf => .inl ⟨setFreePointer_error hf, rfl⟩
  | pgOccupied p =>
    simp only [exec, execPgOccupied, unlessFatal_of_safe h]
    exact .of_answerFrom fun f hf => .inl ⟨pageOperand_error hf, rfl⟩
  | pgFree p =>
    simp only [exec, execPgFree, unlessFatal_of_safe h]
    exact .of_answerFrom fun f hf => .inl ⟨pageOperand_error hf, rfl⟩
  | runStep =>
    simp only [exec, execRunStep, unlessFatal_of_safe h]
    exact runStepWith_effect _ s
  | runToCompletion m x => exact execRunToCompletion_effect h m x
  | setPc d =>
    simp only [exec, execSetPc, unlessFatal_of_safe h]
    exact .setsPc d rfl
  | getPc =>
    simp only [exec, execGetPc, unlessFatal_of_safe h]
    exact .answers _
  | getCount =>
    simp only [exec, execGetCount, unlessFatal_of_safe h]
    exact .answers _

/-- While `fatal` is set every command only answers FATAL (R245). -/
theorem exec_of_fatal {s : State} {f : FatalRecord} (h : s.fatal = some f) (i : Instr) :
    exec i s = .next (s.answer (fatalResponse f)) := by
  cases i <;> exact unlessFatal_of_fatal h _

/-! ## What a step can do -/

/-- A pass of a run (R218): it ends at the sentinel, completes a cycle, ends with a kernel fault, or takes a fatal fault. -/
theorem continueRun_cases {s : State} (h : s.fatal = none) (K : Kernel) (run : Run) :
    (continueRun K run s = .next (s.endRun run okDone)) ∨
    (∃ m pc ks, KeepsMemory s.cfg s.pages m ∧ continueRun K run s = .next (s.writeBack m pc ks)) ∨
    (∃ k m, KeepsMemory s.cfg s.pages m ∧
      continueRun K run s = .next ((s.withPages m).endRun run (kernelFaultResponse k))) ∨
    (∃ f, (IsPageFault f ∨ IsCapacityFault f) ∧ continueRun K run s = .next (s.raiseFatal f)) := by
  rw [continueRun, unlessFatal_of_safe h]
  split
  · exact .inl rfl
  · rcases cycle_cases K s with ⟨m, pc, ks, hm, hc⟩ | ⟨k, m, hm, hc⟩ | ⟨f, hc⟩
    · exact .inr (.inl ⟨m, pc, ks, hm, by rw [hc]⟩)
    · exact .inr (.inr (.inl ⟨k, m, hm, by rw [hc]⟩))
    · exact .inr (.inr (.inr ⟨f, cycle_fatal hc, by rw [hc]⟩))

theorem continueRun_of_fatal {s : State} {f : FatalRecord} (h : s.fatal = some f) (K : Kernel) (run : Run) :
    continueRun K run s = .next (s.answer (fatalResponse f)) := unlessFatal_of_fatal h _

/-- What a step is: a pass of the run in progress, the idle step, or the first request of the port, run or rejected. -/
theorem step_cases (s : State) :
    (∃ run, s.run = some run ∧ step s = continueRun Config.kernel run s) ∨
    (s.run = none ∧ s.requests = [] ∧ step s = .next s) ∨
    (∃ r rest, s.run = none ∧ s.requests = r :: rest ∧
      ((∃ i, decode r = .ok i ∧ step s = exec i { s with requests := rest }) ∨
        (∃ e, decode r = .error e ∧ step s = rejectRequest e { s with requests := rest }))) := by
  cases hr : s.run with
  | some run => exact .inl ⟨run, rfl, by rw [step, hr]⟩
  | none =>
    cases hq : s.requests with
    | nil => exact .inr (.inl ⟨rfl, rfl, by simp [step, hr, State.takeRequest, hq]⟩)
    | cons r rest =>
      refine .inr (.inr ⟨r, rest, rfl, rfl, ?_⟩)
      cases hd : decode r with
      | ok i => exact .inl ⟨i, rfl, by simp [step, hr, State.takeRequest, hq, runRequest, hd]⟩
      | error e => exact .inr ⟨e, rfl, by simp [step, hr, State.takeRequest, hq, runRequest, hd]⟩

end Sys2Proof.Machine
end

