-- ==== Sys2Proof/Laws/NextUnoccupied.lean ====
section
/-! SUPPORT. The next unoccupied address (spec R126): what the search finds, and the join of a page id and an offset in range. -/

namespace Sys2Proof.Machine

theorem findPage_of_isCommitted {m : Memory} {p : Nat} (h : isCommitted m p = true) : ∃ pg, findPage m p = some pg :=
  Option.isSome_iff_exists.1 h

/-- A page id and an offset in range come back from their join (R51). -/
theorem joinAddr_spec {c : Config} {p o : Nat} (h1 : p < c.pageCount) (h2 : o < c.pageSize) :
    (joinAddr c p o).toNat = p * c.pageSize + o ∧
      pageIdOf c (joinAddr c p o) = p ∧ offsetOf c (joinAddr c p o) = o := by
  have h3 := pageCount_mul_pageSize c
  have h4 : p * c.pageSize + o < 2 ^ 64 := by
      rw [← h3]
      calc p * c.pageSize + o < (p + 1) * c.pageSize := by rw [Nat.add_mul]; omega
        _ ≤ _ := Nat.mul_le_mul_right _ h1
  unfold pageIdOf offsetOf joinAddr
  rw [BitVec.toNat_ofNat, Nat.mod_eq_of_lt h4]
  refine ⟨rfl, ?_, ?_⟩
  · rw [Nat.mul_comm, Nat.mul_add_div (pageSize_pos c), Nat.div_eq_of_lt h2, Nat.add_zero]
  · rw [Nat.mul_comm, Nat.mul_add_mod, Nat.mod_eq_of_lt h2]

/-- The search finds the committed page of least id that has room; every committed page below it is full. -/
theorem firstRoom_some {c : Config} {m : Memory} {lo : Nat} (w : pagesWf c lo m = true) {pg : Page} (h : firstRoom c m = some pg) :
    findPage m pg.id = some pg ∧ pg.freePointer < c.pageSize ∧
      ∀ q g, q < pg.id → freePointerIn m q = some g → g = c.pageSize := by
  induction m generalizing lo with
  | nil => cases h
  | cons a t ih =>
    have ha : a.wf c = true := pagesWf_page w a (by simp)
    have hfp := ((Page.wf_iff c a).1 ha).2.2
    simp only [pagesWf, Bool.and_eq_true, decide_eq_true_eq] at w
    simp only [firstRoom] at h
    split at h
    · rename_i hr
      cases h
      refine ⟨by simp [findPage], hr, fun q g hq hg => ?_⟩
      exfalso
      have hge := pagesWf_ge w.2
      have : findPage (pg :: t) q = none := by
        rw [findPage_none_iff]
        intro r hr'
        rcases List.mem_cons.1 hr' with rfl | hr'
        · omega
        · have := hge r hr'; omega
      simp [freePointerIn, this] at hg
    · rename_i hr
      obtain ⟨h1, h2, h3⟩ := ih w.2 h
      have hge := pagesWf_ge w.2 pg (findPage_mem h1)
      refine ⟨by rw [findPage, if_neg (by omega)]; exact h1, h2, fun q g hq hg => ?_⟩
      by_cases hqa : a.id = q
      · simp only [freePointerIn, findPage, if_pos hqa] at hg
        cases hg
        omega
      · simp only [freePointerIn, findPage, if_neg hqa] at hg
        exact h3 q g hq hg

/-- Where the search finds no page, every committed page is full. -/
theorem firstRoom_none {c : Config} {m : Memory} {lo : Nat} (w : pagesWf c lo m = true) (h : firstRoom c m = none) :
    ∀ q g, freePointerIn m q = some g → g = c.pageSize := by
  induction m generalizing lo with
  | nil => intro q g hg; cases hg
  | cons a t ih =>
    have ha : a.wf c = true := pagesWf_page w a (by simp)
    have hfp := ((Page.wf_iff c a).1 ha).2.2
    simp only [pagesWf, Bool.and_eq_true, decide_eq_true_eq] at w
    simp only [firstRoom] at h
    split at h
    · cases h
    · intro q g hg
      by_cases hqa : a.id = q
      · simp only [freePointerIn, findPage, if_pos hqa] at hg
        cases hg
        omega
      · simp only [freePointerIn, findPage, if_neg hqa] at hg
        exact ih w.2 h q g hg

/-- The greatest committed page id. -/
theorem maxPageId_spec {m : Memory} (h : m ≠ []) :
    isCommitted m (maxPageId m) = true ∧ ∀ q, isCommitted m q = true → q ≤ maxPageId m := by
  induction m with
  | nil => exact absurd rfl h
  | cons a t ih =>
    have hmem : ∀ (m : Memory) q, isCommitted m q = true ↔ ∃ pg ∈ m, pg.id = q := by
      intro m q
      constructor
      · intro hq; obtain ⟨pg, hp⟩ := findPage_of_isCommitted hq; exact ⟨pg, findPage_mem hp, findPage_id hp⟩
      · rintro ⟨pg, hp, hq⟩
        by_contra hc
        have hn : findPage m q = none := by simpa [isCommitted] using hc
        exact findPage_none_iff.1 hn pg hp hq
    rw [maxPageId]
    constructor
    · rw [hmem]
      by_cases ht : t = []
      · subst ht; exact ⟨a, by simp, by simp [maxPageId]⟩
      · rcases Nat.le_total a.id (maxPageId t) with hle | hle
        · obtain ⟨pg, h1, h2⟩ := (hmem t _).1 (ih ht).1
          exact ⟨pg, List.mem_cons_of_mem _ h1, by omega⟩
        · exact ⟨a, by simp, by omega⟩
    · intro q hq
      obtain ⟨pg, h1, h2⟩ := (hmem _ _).1 hq
      rcases List.mem_cons.1 h1 with rfl | h1
      · omega
      · have := (ih (by rintro rfl; simp at h1)).2 q ((hmem _ _).2 ⟨pg, h1, h2⟩)
        omega

/-- An answer lies at its page's free pointer, or at the start of a page that is above every committed one; every committed page below it
is full. -/
theorem nextUnoccupied_ok {c : Config} {m : Memory} (w : Memory.wf c m = true) {a : Word} (h : nextUnoccupied c m = .ok a) :
   (∀ q g, q < pageIdOf c a → freePointerIn m q = some g → g = c.pageSize) ∧
   ((freePointerIn m (pageIdOf c a) = some (offsetOf c a)) ∨
     (freePointerIn m (pageIdOf c a) = none ∧ offsetOf c a = 0 ∧ ∀ q g, freePointerIn m q = some g → q < pageIdOf c a)) := by
  unfold nextUnoccupied at h
  cases hr : firstRoom c m with
  | some pg =>
    rw [hr] at h
    obtain ⟨h1, h2, h3⟩ := firstRoom_some w hr
    have hw := (Page.wf_iff c pg).1 (wf_findPage w h1)
    have ha : joinAddr c pg.id pg.freePointer = a := by simpa using h
    subst ha
    obtain ⟨-, j1, j2⟩ := joinAddr_spec hw.1 h2
    rw [j1, j2]
    exact ⟨h3, .inl (by simp [freePointerIn, h1])⟩
  | none =>
    rw [hr] at h
    have hall := firstRoom_none w hr
    cases m with
    | nil =>
      have ha : joinAddr c 0 0 = a := by simpa using h
      subst ha
      obtain ⟨-, j1, j2⟩ := joinAddr_spec (pageCount_pos c) (pageSize_pos c)
      rw [j1, j2]
      exact ⟨by simp, .inr ⟨rfl, rfl, by intro q g hg; cases hg⟩⟩
    | cons b t =>
      have hm := maxPageId_spec (m := b :: t) (by simp)
      simp only at h
      split at h
      · cases h
      · rename_i hne
        have hlt : maxPageId (b :: t) + 1 < c.pageCount := by
          obtain ⟨pg, hp⟩ := findPage_of_isCommitted hm.1
          have hid := findPage_id hp
          have hw := (Page.wf_iff c pg).1 (wf_findPage w hp)
          omega
        have ha : joinAddr c (maxPageId (b :: t) + 1) 0 = a := by simpa using h
        subst ha
        obtain ⟨-, j1, j2⟩ := joinAddr_spec hlt (pageSize_pos c)
        rw [j1, j2]
        have hq : ∀ q g, freePointerIn (b :: t) q = some g → q < maxPageId (b :: t) + 1 := by
          intro q g hg
          have := hm.2 q (by rw [← freePointerIn_isSome, hg]; rfl)
          omega
        refine ⟨fun q g _ hg => hall q g hg, .inr ⟨?_, rfl, hq⟩⟩
        cases hx : freePointerIn (b :: t) (maxPageId (b :: t) + 1) with
        | none => rfl
        | some g => have := hq _ g hx; omega

end Sys2Proof.Machine
end

