-- ==== Sys2Proof/Laws/PerInstr.lean ====
section
/-! SUPPORT. Statements per command, about the command as syntax: its code is one of the opcode table's (spec R85), so no command
is encoded by a code the block calls illegal (R92). -/

namespace Sys2Proof.Laws.EncodeSelector

/-- The code a command is encoded with stands in the opcode table. -/
def Statement (i : Instr) : Prop := (encode i).op ∈ tableCodes

theorem loadByte (a : Word) : Statement (.loadByte a) := by simp [Statement, encode, tableCodes]

theorem loadTwo (a : Word) : Statement (.loadTwo a) := by simp [Statement, encode, tableCodes]

theorem loadFour (a : Word) : Statement (.loadFour a) := by simp [Statement, encode, tableCodes]

theorem loadEight (a : Word) : Statement (.loadEight a) := by simp [Statement, encode, tableCodes]

theorem storeByte (a d : Word) : Statement (.storeByte a d) := by simp [Statement, encode, tableCodes]

theorem storeTwo (a d : Word) : Statement (.storeTwo a d) := by simp [Statement, encode, tableCodes]

theorem storeFour (a d : Word) : Statement (.storeFour a d) := by simp [Statement, encode, tableCodes]

theorem storeEight (a d : Word) : Statement (.storeEight a d) := by simp [Statement, encode, tableCodes]

theorem loadSeq (a l : Word) : Statement (.loadSeq a l) := by simp [Statement, encode, tableCodes]

theorem storeSeq (a l : Word) (b : List Byte) : Statement (.storeSeq a l b) := by simp [Statement, encode, tableCodes]

theorem nextBlock : Statement .nextBlock := by simp [Statement, encode, tableCodes]

theorem loadElf (i : HostFile) : Statement (.loadElf i) := by simp [Statement, encode, tableCodes]

theorem bsGetAddress (p o : Word) (f : Bool) : Statement (.bsGetAddress p o f) := by simp [Statement, encode, tableCodes]

theorem bsGetPage (p : Word) : Statement (.bsGetPage p) := by simp [Statement, encode, tableCodes]

theorem bsFits (o s : Word) : Statement (.bsFits o s) := by simp [Statement, encode, tableCodes]

theorem bsNextUnocc : Statement .bsNextUnocc := by simp [Statement, encode, tableCodes]

theorem pgGetFp (p : Word) : Statement (.pgGetFp p) := by simp [Statement, encode, tableCodes]

theorem pgSetFp (p v : Word) : Statement (.pgSetFp p v) := by simp [Statement, encode, tableCodes]

theorem pgOccupied (p : Word) : Statement (.pgOccupied p) := by simp [Statement, encode, tableCodes]

theorem pgFree (p : Word) : Statement (.pgFree p) := by simp [Statement, encode, tableCodes]

theorem runStep : Statement .runStep := by simp [Statement, encode, tableCodes]

theorem runToCompletion (m : BitVec 2) (x : Bool) : Statement (.runToCompletion m x) := by simp [Statement, encode, tableCodes]

theorem setPc (d : Word) : Statement (.setPc d) := by simp [Statement, encode, tableCodes]

theorem getPc : Statement .getPc := by simp [Statement, encode, tableCodes]

theorem getCount : Statement .getCount := by simp [Statement, encode, tableCodes]

end Sys2Proof.Laws.EncodeSelector
end

