-- ==== Sys2Proof/Tests/Slice0.lean ====
section
/-! SUPPORT. Tests of the model against spec/95_test_vectors.md (each name ends in its vector's id where there is one) and against the
encoding tables of spec/30_encoding.md; and the smoke test of the well-formedness checks. -/

namespace Sys2Proof.Tests

open Sys2Proof.Machine

/-! ## Well-formedness: each check refuses an ill-formed term -/

theorem test_wf_refuses_wide_page_id :
    Instr.wf Config.exampleInstance (.bsGetAddress 0x10000000000000 0 true) = false ∧
    Instr.wf Config.exampleInstance (.bsGetPage 0x10000000000000) = false ∧
    Instr.wf Config.exampleInstance (.pgGetFp 0x10000000000000) = false ∧
    Instr.wf Config.exampleInstance (.pgSetFp 0x10000000000000 0) = false ∧
    Instr.wf Config.exampleInstance (.pgOccupied 0x10000000000000) = false ∧
    Instr.wf Config.exampleInstance (.pgFree 0x10000000000000) = false ∧
    Instr.wf Config.exampleInstance (.pgFree 0xFFFFFFFFFFFFF) = true := by decide

theorem test_wf_refuses_sequence_of_other_length :
    Instr.wf Config.exampleInstance (.storeSeq 0 3 [1, 2]) = false ∧
    Instr.wf Config.exampleInstance (.storeSeq 0 2 [1, 2]) = true := by decide

/-! ## Decoding: every row's code and operand fields, written out from R84 and R85 -/

theorem test_decode_loads_stores :
    decode { op := 0b00000001, a := 0x1000 } = .ok (.loadByte 0x1000) ∧
    decode { op := 0b00000010, a := 0x1FFF } = .ok (.loadTwo 0x1FFF) ∧
    decode { op := 0b00000011, a := 0x1FFE } = .ok (.loadFour 0x1FFE) ∧
    decode { op := 0b00000100, a := 0x1FFD } = .ok (.loadEight 0x1FFD) ∧
    decode { op := 0b00000101, a := 0x1000, d := 0x1AB } = .ok (.storeByte 0x1000 0x1AB) ∧
    decode { op := 0b00000110, a := 0x1FFF, d := 0x1234 } = .ok (.storeTwo 0x1FFF 0x1234) ∧
    decode { op := 0b00000111, a := 0x1FFE, d := 0x11223344 } = .ok (.storeFour 0x1FFE 0x11223344) ∧
    decode { op := 0b00001000, a := 0x1FFD, d := 0x0807060504030201 } =
      .ok (.storeEight 0x1FFD 0x0807060504030201) := by decide

theorem test_decode_sequences_and_loader :
    decode { op := 0b00001001, a := 0x1006, l := 4 } = .ok (.loadSeq 0x1006 4) ∧
    decode { op := 0b00001010, a := 0x1008, l := 2, b := [0xAA, 0xAB] } = .ok (.storeSeq 0x1008 2 [0xAA, 0xAB]) ∧
    decode { op := 0b00001010, a := 0x1008, l := 3, b := [0xAA, 0xAB] } = .error .sequenceLength ∧
    decode { op := 0b00001011 } = .ok .nextBlock ∧
    decode { op := 0b00001100, i := .image [0x7F] } = .ok (.loadElf (.image [0x7F])) := by decide

theorem test_decode_backing_store_and_pages :
    decode { op := 0b00010000, p := 5, o := 0x10, f := true } = .ok (.bsGetAddress 5 0x10 true) ∧
    decode { op := 0b00010001, p := 5 } = .ok (.bsGetPage 5) ∧
    decode { op := 0b00010010, o := 0xFFE, s := 2 } = .ok (.bsFits 0xFFE 2) ∧
    decode { op := 0b00010011 } = .ok .bsNextUnocc ∧
    decode { op := 0b00011000, p := 1 } = .ok (.pgGetFp 1) ∧
    decode { op := 0b00011001, p := 1, v := 0x1000 } = .ok (.pgSetFp 1 0x1000) ∧
    decode { op := 0b00011010, p := 1 } = .ok (.pgOccupied 1) ∧
    decode { op := 0b00011011, p := 1 } = .ok (.pgFree 1) := by decide

theorem test_decode_loop_and_registers :
    decode { op := 0b00100000 } = .ok .runStep ∧
    decode { op := 0b00100001, m := 2, x := true } = .ok (.runToCompletion 2 true) ∧
    decode { op := 0b00100010, d := 0x10000 } = .ok (.setPc 0x10000) ∧
    decode { op := 0b00100011 } = .ok .getPc ∧
    decode { op := 0b00100100 } = .ok .getCount := by decide

theorem test_decode_illegal_H4_H5 :
    decode { op := 0x00 } = .error (.illegalCommand 0x00) ∧ decode { op := 0xFF } = .error (.illegalCommand 0xFF) ∧
    decode { op := 0x0D } = .error (.illegalCommand 0x0D) ∧ decode { op := 0x25 } = .error (.illegalCommand 0x25) := by
  decide

theorem test_decodeTableWord :
    decodeTableWord 8 0x01 = some (.loadByte 0) ∧ decodeTableWord 8 0x0A = some (.storeSeq 0 0 []) ∧
    decodeTableWord 8 0x0C = some (.loadElf .cannotOpen) ∧ decodeTableWord 8 0x21 = some (.runToCompletion 0 false) ∧
    decodeTableWord 8 0x14 = none := by decide

/-! ## Small states, and what a test reads of an outcome -/

/-- The block after reset with these pages committed. -/
def withMem (m : Memory) : State := { State.reset with pages := m }

/-- A block with another OFFSET_BITS (one more than the number given) and CAPACITY. -/
def instanceOf (o : Fin 63) (cap : Nat) (m : Memory) : State := { State.construct ⟨o, cap⟩ [] with pages := m }

def stateOf (o : Host.Outcome State Fault Refusal) : Option State :=
  match o with
  | .next t => some t
  | .fault _ => none
  | .refused _ => none

def respOf (o : Host.Outcome State Fault Refusal) : Option Response := (stateOf o).bind fun t => t.response

def fatalOf (o : Host.Outcome State Fault Refusal) : Option FatalRecord := (stateOf o).bind fun t => t.fatal

def pagesOf (o : Host.Outcome State Fault Refusal) : Option Memory := (stateOf o).map fun t => t.pages

/-- Page 1 with 16 bytes 00..0F stored by STORE_SEQ (the start of the PG vectors). -/
def page1 : Page :=
  { id := 1,
    data := [(1, 1), (2, 2), (3, 3), (4, 4), (5, 5), (6, 6), (7, 7), (8, 8), (9, 9), (10, 10), (11, 11), (12, 12),
      (13, 13), (14, 14), (15, 15)],
    freePointer := 0x10 }

/-- The two pages VM5 leaves: bytes 0x1FFD..0x2004 = 01..08. -/
def vm5 : Memory :=
  [{ id := 1, data := [(0xFFD, 1), (0xFFE, 2), (0xFFF, 3)], freePointer := 0 },
   { id := 2, data := [(0, 4), (1, 5), (2, 6), (3, 7), (4, 8)], freePointer := 0 }]

/-! ## Reset -/

theorem test_reset_invariant : Inv State.reset := by decide

theorem test_states_are_well_formed : Inv (withMem [page1]) ∧ Inv (withMem vm5) := by decide

/-! ## Loads and stores -/

theorem test_loadByte_VB2_VB3 :
    respOf (exec (.loadByte 0x1000) (withMem [{ id := 1, data := [(0, 0xAB)], freePointer := 0 }])) =
      some { st := .ok, r := some 0xAB } ∧
    respOf (exec (.loadByte 0x1FFF) (withMem [{ id := 1, data := [(0, 0xAB)], freePointer := 0 }])) =
      some { st := .ok, r := some 0 } := by decide

theorem test_loadByte_fault_VB1 :
    fatalOf (exec (.loadByte 0x1000) State.reset) = some ⟨.pageFault, 0x1000, .read⟩ ∧
    respOf (exec (.loadByte 0x1000) State.reset) = some { st := .fatal, e := some 1 } := by decide

theorem test_loadTwo_faults_at_second_page_VM9 :
    fatalOf (exec (.loadTwo 0x1FFF) (withMem [{ id := 1, data := [(0xFFF, 1)], freePointer := 0 }])) =
      some ⟨.pageFault, 0x2000, .read⟩ := by decide

theorem test_loadTwo_wraps_VM12 :
    respOf (exec (.loadTwo 0xFFFFFFFFFFFFFFFF)
      (withMem [{ id := 0, data := [(0, 0xA1)], freePointer := 0 },
        { id := 0xFFFFFFFFFFFFF, data := [(0xFFF, 0xB2)], freePointer := 0 }])) =
      some { st := .ok, r := some 0xA1B2 } := by decide

theorem test_loadFour_VM6 :
    respOf (exec (.loadFour 0x1FFF) (withMem vm5)) = some { st := .ok, r := some 0x06050403 } := by decide

theorem test_loadFour_zero_extends_VM13 :
    respOf (exec (.loadFour 0x1004) (withMem [⟨1, [(0, 0xFF), (1, 0xFF), (2, 0xFF), (3, 0xFF), (4, 0xFF), (5, 0xFF),
      (6, 0xFF), (7, 0xFF)], 0⟩])) = some { st := .ok, r := some 0xFFFFFFFF } := by decide

theorem test_loadEight_VM5 :
    respOf (exec (.loadEight 0x1FFD) (withMem vm5)) = some { st := .ok, r := some 0x0807060504030201 } := by decide

theorem test_storeByte_VB2_VB4 :
    pagesOf (exec (.storeByte 0x1000 0x1AB) State.reset) = some [{ id := 1, data := [(0, 0xAB)], freePointer := 0 }] := by
  decide

theorem test_storeByte_of_zero_keeps_the_canonical_form :
    pagesOf (exec (.storeByte 0x1001 0x100) (withMem [{ id := 1, data := [(0, 1), (1, 2)], freePointer := 0 }])) =
      some [{ id := 1, data := [(0, 1)], freePointer := 0 }] := by decide

theorem test_storeTwo_VM2 :
    pagesOf (exec (.storeTwo 0x1FFF 0x1234) State.reset) =
      some [{ id := 1, data := [(0xFFF, 0x34)], freePointer := 0 }, { id := 2, data := [(0, 0x12)], freePointer := 0 }] := by
  decide

theorem test_storeTwo_mixed_widths_VM15 :
    pagesOf (exec (.storeTwo 0x1001 0xAAAA)
      (withMem [{ id := 1, data := [(0, 0x78), (1, 0x56), (2, 0x34), (3, 0x12)], freePointer := 0 }])) =
      some [{ id := 1, data := [(0, 0x78), (1, 0xAA), (2, 0xAA), (3, 0x12)], freePointer := 0 }] := by decide

theorem test_storeFour_VM4 :
    pagesOf (exec (.storeFour 0x1FFE 0x11223344) State.reset) =
      some [{ id := 1, data := [(0xFFE, 0x44), (0xFFF, 0x33)], freePointer := 0 },
        { id := 2, data := [(0, 0x22), (1, 0x11)], freePointer := 0 }] := by decide

theorem test_storeFour_capacity_VM11 :
    fatalOf (exec (.storeFour 0x1FFE 0x11223344) (instanceOf 11 0x1000 [])) = some ⟨.capacityExhausted, 0x2000, .write⟩ ∧
    pagesOf (exec (.storeFour 0x1FFE 0x11223344) (instanceOf 11 0x1000 [])) = some [] := by decide

theorem test_storeEight_VM5 :
    pagesOf (exec (.storeEight 0x1FFD 0x0807060504030201) State.reset) = some vm5 := by decide

theorem test_storeEight_two_byte_pages_VM14 :
    pagesOf (exec (.storeEight 0x1 0x0807060504030201) (instanceOf 0 0x100000 [])) =
      some [{ id := 0, data := [(1, 1)], freePointer := 0 }, { id := 1, data := [(0, 2), (1, 3)], freePointer := 0 },
        { id := 2, data := [(0, 4), (1, 5)], freePointer := 0 }, { id := 3, data := [(0, 6), (1, 7)], freePointer := 0 },
        { id := 4, data := [(0, 8)], freePointer := 0 }] := by decide

/-! ## Sequences and occupancy -/

theorem test_loadSeq_VS7_VS14 :
    respOf (exec (.loadSeq 0x1006 4) (withMem [⟨1, [(6, 6), (7, 7), (8, 0xBB), (9, 0xBB)], 0x18⟩])) = some { st := .ok, q := some [0x06, 0x07, 0xBB, 0xBB] } ∧
    respOf (exec (.loadSeq 0x4000 0) State.reset) = some { st := .ok, q := some [] } := by decide

theorem test_loadSeq_fault_VS15 :
    fatalOf (exec (.loadSeq 0x3FFF 0x2) (withMem [{ id := 3, data := [(0, 1)], freePointer := 0 }])) =
      some ⟨.pageFault, 0x4000, .read⟩ := by decide

theorem test_storeSeq_VS3_skips_then_adds :
    (pagesOf (exec (.storeSeq 0x1008 0x10 [0xBB, 0xBB, 0xBB, 0xBB, 0xBB, 0xBB, 0xBB, 0xBB, 0xBB, 0xBB, 0xBB, 0xBB, 0xBB,
      0xBB, 0xBB, 0xBB]) (withMem [page1]))).map (fun m => m.map fun p => (p.id, p.freePointer)) = some [(1, 0x18)] := by
  decide

theorem test_storeSeq_VS5_gap_and_next_page :
    pagesOf (exec (.storeSeq 0x1FFE 4 [0xD0, 0xD1, 0xD2, 0xD3]) (withMem [{ id := 1, data := [], freePointer := 0x24 }])) =
      some [{ id := 1, data := [(0xFFE, 0xD0), (0xFFF, 0xD1)], freePointer := 0x1000 },
        { id := 2, data := [(0, 0xD2), (1, 0xD3)], freePointer := 2 }] := by decide

theorem test_nextBlock_VS13 :
    respOf (exec .nextBlock (withMem [{ id := 1, data := [], freePointer := 0x1000 },
      { id := 2, data := [], freePointer := 0x1000 }, { id := 3, data := [(0, 1)], freePointer := 0 }])) =
      some { st := .ok, r := some 0x3000 } := by decide

theorem test_nextBlock_NB1 : respOf (exec .nextBlock State.reset) = some { st := .ok, r := some 0 } := by decide

/-! ## Page and backing-store commands -/

theorem test_pgGetFp_PG1_PG7 :
    respOf (exec (.pgGetFp 1) (withMem [page1])) = some { st := .ok, r := some 0x10 } ∧
    fatalOf (exec (.pgGetFp 2) (withMem [page1])) = some ⟨.pageFault, 0x2000, .read⟩ := by decide

theorem test_pgOccupied_PG2 : respOf (exec (.pgOccupied 1) (withMem [page1])) = some { st := .ok, r := some 0x10 } := by
  decide

theorem test_pgFree_PG3 : respOf (exec (.pgFree 1) (withMem [page1])) = some { st := .ok, r := some 0xFF0 } := by decide

theorem test_pgSetFp_PG4_PG6 :
    pagesOf (exec (.pgSetFp 1 0x1000) (withMem [page1])) = some [{ page1 with freePointer := 0x1000 }] ∧
    pagesOf (exec (.pgSetFp 1 0) (withMem [page1])) = some [{ page1 with freePointer := 0 }] := by decide

theorem test_pgSetFp_refused_PG5_PG8 :
    stateOf (exec (.pgSetFp 1 0x1001) (withMem [page1])) =
      some { withMem [page1] with response := some { st := .refused } } ∧
    respOf (exec (.pgSetFp 2 0x2000) (withMem [page1])) = some { st := .refused } := by decide

theorem test_bsGetAddress_BS1_BS2 :
    stateOf (exec (.bsGetAddress 5 0x10 true) State.reset) =
      some { withMem [{ id := 5, data := [], freePointer := 0 }] with response := some { st := .ok, r := some 0x5010 } } ∧
    respOf (exec (.bsGetAddress 5 0xFFF false) (withMem [{ id := 5, data := [], freePointer := 0 }])) =
      some { st := .ok, r := some 0x5FFF } := by decide

theorem test_bsGetAddress_faults_BS3_BS4_BS5 :
    fatalOf (exec (.bsGetAddress 6 0 false) State.reset) = some ⟨.pageFault, 0x6000, .read⟩ ∧
    respOf (exec (.bsGetAddress 5 0x1000 true) State.reset) = some { st := .refused } ∧
    fatalOf (exec (.bsGetAddress 2 0 true) (instanceOf 11 0x1000 [{ id := 1, data := [], freePointer := 0 }])) =
      some ⟨.capacityExhausted, 0x2000, .write⟩ := by decide

theorem test_bsGetPage_BS18 :
    fatalOf (exec (.bsGetPage 0) State.reset) = some ⟨.pageFault, 0, .read⟩ ∧
    respOf (exec (.bsGetPage 1) (withMem [page1])) = some { st := .ok, r := some 1 } := by decide

theorem test_bsFits_BS7_to_BS12 :
    respOf (exec (.bsFits 0xFFE 2) State.reset) = some { st := .ok, r := some 1 } ∧
    respOf (exec (.bsFits 0xFFE 4) State.reset) = some { st := .ok, r := some 0 } ∧
    respOf (exec (.bsFits 0x1000 0) State.reset) = some { st := .ok, r := some 1 } ∧
    respOf (exec (.bsFits 0x1000 1) State.reset) = some { st := .ok, r := some 0 } := by decide

theorem test_bsNextUnocc_BS15_BS16_BS17 :
    respOf (exec .bsNextUnocc (withMem [{ id := 1, data := [], freePointer := 0x1000 }])) =
      some { st := .ok, r := some 0x2000 } ∧
    respOf (exec .bsNextUnocc (withMem [{ id := 1, data := [], freePointer := 0x1000 },
      { id := 3, data := [], freePointer := 0x20 }])) = some { st := .ok, r := some 0x3020 } ∧
    respOf (exec .bsNextUnocc (withMem [{ id := 5, data := [], freePointer := 3 }])) =
      some { st := .ok, r := some 0x5003 } := by decide

theorem test_bsNextUnocc_last_page_BS19 :
    fatalOf (exec .bsNextUnocc (withMem [{ id := 0xFFFFFFFFFFFFF, data := [], freePointer := 0x1000 }])) =
      some ⟨.capacityExhausted, 0xFFFFFFFFFFFFFFFF, .write⟩ := by decide

/-! ## The loader -/

/-- The 64 header bytes and the program header of image E0 (95_test_vectors), with the field values a vector changes. -/
def elfHead (class_ data machine phentsize phnum ptype poff filesz memsz : Byte) : List Byte :=
  [0x7F, 0x45, 0x4C, 0x46, class_, data, 1, 0, 0, 0, 0, 0, 0, 0, 0, 0] ++
  [2, 0, machine, 0, 1, 0, 0, 0, 0, 0, 1, 0, 0, 0, 0, 0] ++
  [0x40, 0, 0, 0, 0, 0, 0, 0, 0, 0, 0, 0, 0, 0, 0, 0] ++
  [0, 0, 0, 0, 0x40, 0, phentsize, 0, phnum, 0, 0, 0, 0, 0, 0, 0] ++
  [ptype, 0, 0, 0, 5, 0, 0, 0, poff, 0, 0, 0, 0, 0, 0, 0] ++
  [0, 0, 1, 0, 0, 0, 0, 0, 0, 0, 1, 0, 0, 0, 0, 0] ++
  [filesz, 0, 0, 0, 0, 0, 0, 0, memsz, 0, 0, 0, 0, 0, 0, 0] ++
  [0, 0x10, 0, 0, 0, 0, 0, 0]

/-- Image E1 (program P1): its 20 code bytes. -/
def imageE1 : List Byte :=
  elfHead 2 1 0xF3 0x38 1 1 0x78 0x14 0x14 ++
  [0x13, 0, 0, 0, 0x13, 0, 0, 0, 0x13, 0, 0, 0, 0x13, 0, 0, 0, 0x67, 0, 0, 0]

/-- The page P1's load leaves. -/
def pageE1 : Page :=
  { id := 0x10, data := [(0, 0x13), (4, 0x13), (8, 0x13), (12, 0x13), (16, 0x67)], freePointer := 0x14 }

theorem test_loadElf_P1 :
    stateOf (exec (.loadElf (.image imageE1)) State.reset) =
      some { withMem [pageE1] with response := some { st := .ok, r := some 0x10000 } } := by decide +kernel

theorem test_loadElf_skips_V_ELF_12_13_15 :
    stateOf (exec (.loadElf (.image (elfHead 2 1 0xF3 0x38 1 1 0x78 0x40 0x3F))) State.reset) =
      some { State.reset with response := some { st := .ok, r := some 0x10000 } } ∧
    stateOf (exec (.loadElf (.image (elfHead 2 1 0xF3 0x38 1 2 0xFF 0x40 0x40))) State.reset) =
      some { State.reset with response := some { st := .ok, r := some 0x10000 } } ∧
    stateOf (exec (.loadElf (.image (elfHead 2 1 0xF3 0x38 0 1 0xFF 0x40 0x40))) State.reset) =
      some { State.reset with response := some { st := .ok, r := some 0x10000 } } := by decide +kernel

theorem test_checkImage_V_ELF_2_to_11 :
    checkImage (elfHead 1 1 0xF3 0x38 1 1 0x78 0 0) = some .badClass ∧
    checkImage (elfHead 2 2 0xF3 0x38 1 1 0x78 0 0) = some .badData ∧
    checkImage (elfHead 2 1 0x3E 0x38 1 1 0x78 0 0) = some .badMachine ∧
    checkImage (0x7F :: 0x46 :: (elfHead 2 1 0xF3 0x38 1 1 0x78 0 0).drop 2) = some .badMagic ∧
    checkImage (elfHead 1 1 0x3E 0x38 1 1 0x78 0 0) = some .badClass ∧
    checkImage ((elfHead 2 1 0xF3 0x38 1 1 0x78 0 0).take 63) = some .truncatedHeader ∧
    checkImage (elfHead 2 1 0xF3 0x40 1 1 0x78 0 0) = some .malformedPhdrTable ∧
    checkImage ((elfHead 2 1 0xF3 0x38 1 1 0x78 0 0).take 0x70) = some .malformedPhdrTable ∧
    checkImage (elfHead 2 1 0xF3 0x38 1 1 0x78 1 1) = some .segmentRange ∧
    checkImage (elfHead 2 1 0xF3 0x38 1 1 0x78 0 0) = none := by decide +kernel

theorem test_loadElf_open_V_ELF_8 :
    respOf (exec (.loadElf .cannotOpen) State.reset) = some { st := .loaderError, e := some 0x10 } ∧
    stateOf (exec (.loadElf .pending) State.reset) = none := by decide +kernel

theorem test_loadElf_capacity_V_ELF_18 :
    fatalOf (exec (.loadElf (.image imageE1)) (instanceOf 11 0 [])) = some ⟨.capacityExhausted, 0x10000, .write⟩ := by
  decide +kernel

/-! ## The loop, with the spec's test kernel -/

/-- `K_min` (95_test_vectors, LOOP): it issues no memory commands. -/
def kMin : Kernel where
  decode w := w
  execute i pc ks _ :=
    if i = 0x00000013 then .next (pc + 4) ks else if i = 0x00000067 then .next 0 ks else .kernelFault 0x01

/-- P1 after LOAD_ELF and SET_PC. -/
def p1Start : State := { withMem [pageE1] with pc := 0x10000 }

theorem test_runStep_halted_L1 :
    stateOf (exec .runStep State.reset) = some { State.reset with response := some { st := .halted } } := by decide

theorem test_runStep_P4 :
    stateOf (runStepWith kMin p1Start) =
      some { p1Start with pc := 0x10004, icount := 1, response := some { st := .stepped } } := by decide

def pageFF : Page := { id := 1, data := [(0, 0xFF), (1, 0xFF), (2, 0xFF), (3, 0xFF)], freePointer := 0 }

theorem test_runStep_kernel_fault_L8 :
    stateOf (runStepWith kMin { withMem [pageFF] with pc := 0x1000 }) =
      some { withMem [pageFF] with pc := 0x1000, response := some { st := .kernelFault, e := some 1 } } := by decide

theorem test_runStep_fetch_faults_L9 :
    fatalOf (runStepWith kMin { withMem [{ id := 1, data := [(0xFFE, 0x13)], freePointer := 0 }] with pc := 0x1FFE }) =
      some ⟨.pageFault, 0x2000, .read⟩ := by decide

theorem test_run_P1 :
    (stateOf (runPasses kMin 6 (p1Start.beginRun .simple false))).map (fun t => (t.response, t.icount, t.pc, t.run)) =
      some (some { st := .ok }, 5, 0, none) := by decide

theorem test_runToCompletion_L2_begins :
    stateOf (exec (.runToCompletion 0 false) State.reset) = some { State.reset with run := some { measure := none } } := by
  decide

theorem test_runToCompletion_L3_L4_L5_L6 :
    ((stateOf (exec (.runToCompletion 2 true) State.reset)).map fun t => (t.response, t.reports.length, t.icount)) =
      some (some { st := .ok }, 1, 0) ∧
    ((stateOf (exec (.runToCompletion 2 false) State.reset)).map fun t => (t.response, t.reports.length)) =
      some (some { st := .ok }, 0) ∧
    stateOf (exec (.runToCompletion 1 true) State.reset) =
      some { State.reset with response := some { st := .unimplemented } } ∧
    stateOf (exec (.runToCompletion 3 false) State.reset) =
      some { State.reset with response := some { st := .refused } } := by decide

theorem test_step_runs_a_Simple_run_L2 :
    stateOf (step { State.reset with run := some { measure := none } }) =
      some { State.reset with response := some { st := .ok } } := by decide

/-! ## The host commands and the port -/

theorem test_setPc_getPc_H2 :
    stateOf (exec (.setPc 0xDEADBEEF) State.reset) =
      some { State.reset with pc := 0xDEADBEEF, response := some { st := .ok } } ∧
    respOf (exec .getPc { State.reset with pc := 0xDEADBEEF }) = some { st := .ok, r := some 0xDEADBEEF } := by decide

theorem test_getCount_H3_P1 :
    respOf (exec .getCount State.reset) = some { st := .ok, r := some 0 } ∧
    respOf (exec .getCount { State.reset with icount := 5 }) = some { st := .ok, r := some 5 } := by decide

theorem test_step_illegal_and_fatal_H4_H6 :
    stateOf (step (State.reset.submit { op := 0x00 })) =
      some { State.reset with response := some { st := .illegalCommand } } ∧
    respOf (step ({ State.reset with fatal := some ⟨.pageFault, 0, .read⟩ }.submit { op := 0xFF })) =
      some { st := .fatal, e := some 1 } ∧
    respOf (step ({ State.reset with fatal := some ⟨.pageFault, 0, .read⟩ }.submit { op := 0x23 })) =
      some { st := .fatal, e := some 1 } := by decide

theorem test_step_first_command_after_reset :
    stateOf (step (State.reset.withFetchWord 8 0x23)) =
      some { State.reset with response := some { st := .ok, r := some 0 } } := by decide

theorem test_host_answers_the_open :
    stateOf (step (State.reset.submit { op := 0x0C, i := .pending })) = none ∧
    respOf (step ((State.reset.submit { op := 0x0C, i := .pending }).answerFile .cannotOpen)) =
      some { st := .loaderError, e := some 0x10 } := by decide

/-! ## Addresses (vectors T1 to T5) -/

theorem test_split_join_T1_to_T5 :
    (pageIdOf Config.exampleInstance 0x12345, offsetOf Config.exampleInstance 0x12345) = (0x12, 0x345) ∧
    (pageIdOf Config.exampleInstance 0xFFFFFFFFFFFFFFFF, offsetOf Config.exampleInstance 0xFFFFFFFFFFFFFFFF) =
      (0xFFFFFFFFFFFFF, 0xFFF) ∧
    joinAddr Config.exampleInstance 0x12 0x345 = 0x12345 ∧
    (pageIdOf ⟨15, 0⟩ 0x1000, offsetOf ⟨15, 0⟩ 0x1000) = (0, 0x1000) := by decide

end Sys2Proof.Tests
end

