-- ==== Sys2Proof/Tests/Witnesses.lean ====
section
/-! SUPPORT. For every obligation with hypotheses, a concrete state and operands that meet all of them together; where it has several
clauses, one for each, at a boundary value of its range. -/

namespace Sys2Proof.Tests

open Sys2Proof.Machine Sys2Proof.Statements

theorem next_of_stateOf {o : Host.Outcome State Fault Refusal} {t : State} (h : stateOf o = some t) : o = .next t := by
  cases o with
  | next u => simpa [stateOf] using h
  | fault r => simp [stateOf] at h
  | refused r => simp [stateOf] at h

/-- A page that is full, and an empty one. -/
def fullPage (p : Nat) : Page := { id := p, data := [], freePointer := 0x1000 }

def emptyPage (p : Nat) : Page := { id := p, data := [], freePointer := 0 }

/-- A record of each cause. -/
def faultRecord : FatalRecord := ⟨.pageFault, 0x1000, .read⟩

def capacityRecord : FatalRecord := ⟨.capacityExhausted, 0x2000, .write⟩

/-- A block stopped by a fault. -/
def stopped : State := fatalState State.reset faultRecord

/-! ## Encoding and the port -/

theorem witness_DecodeInvertsEncode :
    Instr.wf Config.exampleInstance (.pgSetFp 0xFFFFFFFFFFFFF 0x1001) = true ∧
    Instr.wf Config.exampleInstance (.storeSeq 0xFFFFFFFFFFFFFFFF 2 [1, 2]) = true ∧
    listedFields { op := 0x0A, a := 7, l := 1, b := [9], d := 5 } = encode (.storeSeq 7 1 [9]) := by decide

theorem witness_OtherCodesAreIllegal :
    ({ op := 0x25 } : Request).op ∉ tableCodes ∧ ({ op := 0x0D } : Request).op ∉ tableCodes ∧
    decode { op := 0x00 } = .error (.illegalCommand 0x00) := by decide

theorem witness_StepRunsDecodedCommand :
    (State.reset.submit { op := 0x22, d := 0x10000 }).run = none ∧
    (State.reset.submit { op := 0x22, d := 0x10000 }).requests = [{ op := 0x22, d := 0x10000 }] ∧
    decode { op := 0x22, d := 0x10000 } = .ok (.setPc 0x10000) := by decide

theorem witness_IllegalCommandAnswersAndChangesNothing :
    (State.reset.submit { op := 0x14 }).fatal = none ∧ (State.reset.submit { op := 0x14 }).run = none ∧
    (State.reset.submit { op := 0x14 }).requests = [{ op := 0x14 }] ∧ (0x14 : BitVec 8) ∉ tableCodes := by decide

theorem witness_FatalAnswersEveryCommand :
    (stopped.submit { op := 0xFF }).fatal = some faultRecord ∧ (stopped.submit { op := 0xFF }).run = none ∧
    (stopped.submit { op := 0xFF }).requests = [{ op := 0xFF }] := by decide

theorem witness_OneCommandAtATime :
    (State.reset.beginRun .simple false).run.isSome = true ∧
    step (State.reset.beginRun .simple false) = .next { State.reset with response := some { st := .ok } } ∧
    State.reset.run = none ∧ State.reset.requests = [] :=
  ⟨by decide, next_of_stateOf (by decide), by decide, by decide⟩

/-! ## Addresses and byte order -/

theorem witness_SplitAndJoinAreInverse :
    0xFFFFFFFFFFFFF < Config.exampleInstance.pageCount ∧ 0xFFF < Config.exampleInstance.pageSize ∧
    1 < (⟨62, 0⟩ : Config).pageCount := by decide

theorem witness_DataIsLittleEndian :
    Width.eight ≠ .byte ∧ State.reset.fatal = none ∧
    exec (storeInstr .eight 0x1FFD 0x0807060504030201) State.reset =
      .next { withMem vm5 with response := some { st := .ok } } ∧
    (∀ i < Width.bytes .eight, exec (.loadByte (addrAdd 0x1FFD i)) (withMem vm5) =
      .next (answered (withMem vm5) { st := .ok, r := some ((BitVec.ofNat 8 (i + 1)).setWidth 64) })) := by
  refine ⟨by decide, by decide, next_of_stateOf (by decide), fun i hi => next_of_stateOf ?_⟩
  revert i
  decide

/-! ## Loads -/

theorem witness_LoadByteAnswersOrFaults :
    State.reset.fatal = none ∧ (withMem [page1]).byteAt 0x100F = some 15 ∧ (withMem [page1]).byteAt 0x1FFF = some 0 ∧
    State.reset.byteAt 0xFFFFFFFFFFFFFFFF = none ∧
    isCommitted State.reset.pages (pageIdOperand State.reset.cfg 5) = false ∧
    pageIdOf State.reset.cfg 0x5010 = pageIdOperand State.reset.cfg 5 ∧
    (0xFFF : Word).toNat < State.reset.cfg.pageSize ∧
    exec (.bsGetAddress 5 0xFFF true) State.reset =
      .next { withMem [emptyPage 5] with response := some { st := .ok, r := some 0x5FFF } } :=
  ⟨by decide, by decide, by decide, by decide, by decide, by decide, by decide, next_of_stateOf (by decide)⟩

theorem witness_LoadOfCommittedBytesCompletes :
    (withMem vm5).fatal = none ∧
    (∀ i < Width.bytes .eight, (withMem vm5).byteAt (addrAdd 0x1FFD i) = some (BitVec.ofNat 8 (i + 1))) ∧
    (∀ i < Width.bytes .two, (withMem [emptyPage 0, emptyPage 0xFFFFFFFFFFFFF]).byteAt
      (addrAdd 0xFFFFFFFFFFFFFFFF i) = some 0) := by decide

theorem witness_LoadFaultsAtFirstUncommittedByte :
    (withMem [page1]).fatal = none ∧ 3 < Width.bytes .four ∧
    (∀ i < 3, Committed (withMem [page1]) (addrAdd 0x1FFD i)) ∧
    ¬ Committed (withMem [page1]) (addrAdd 0x1FFD 3) := by decide

theorem witness_LoadSeqAnswersOrFaults :
    (withMem vm5).fatal = none ∧
    (∀ i < (8 : Word).toNat, (withMem vm5).byteAt (addrAdd 0x1FFD i) = some (BitVec.ofNat 8 (i + 1))) ∧
    3 < (4 : Word).toNat ∧ (∀ i < 3, Committed (withMem [page1]) (addrAdd 0x1FFD i)) ∧
    ¬ Committed (withMem [page1]) (addrAdd 0x1FFD 3) ∧
    (∀ i < (0 : Word).toNat, State.reset.byteAt (addrAdd 0x4000 i) = some 0) := by decide

/-! ## Stores -/

theorem witness_StoreWritesExactlyItsBytes :
    State.reset.fatal = none ∧ RoomFor State.reset (addrRange 0x1FFF (Width.bytes .eight)) ∧
    RoomFor (instanceOf 11 0x1000 []) (addrRange 0x1000 (Width.bytes .byte)) ∧
    RoomFor (instanceOf 11 0 [emptyPage 1]) (addrRange 0x1FFC (Width.bytes .four)) := by decide

theorem witness_StoreFaultsAtFirstByteWithNoRoom :
    Inv (instanceOf 11 0x1000 []) ∧ (instanceOf 11 0x1000 []).fatal = none ∧ 2 < Width.bytes .four ∧
    RoomFor (instanceOf 11 0x1000 []) (addrRange 0x1FFE 2) ∧
    ¬ RoomFor (instanceOf 11 0x1000 []) (addrRange 0x1FFE 3) := by decide

theorem witness_StoreThenLoadReturnsTheValue :
    State.reset.fatal = none ∧ exec (storeInstr .eight 0x1FFD 0x0807060504030201) State.reset =
      .next { withMem vm5 with response := some { st := .ok } } ∧ (withMem vm5).fatal = none :=
  ⟨by decide, next_of_stateOf (by decide), by decide⟩

theorem witness_FetchSeesTheStore :
    p1Start.fatal = none ∧ exec (.storeFour p1Start.pc 0x67) p1Start =
      .next { p1Start with
        pages := [{ pageE1 with data := [(0, 0x67), (4, 0x13), (8, 0x13), (12, 0x13), (16, 0x67)] }]
        response := some { st := .ok } } := ⟨by decide, next_of_stateOf (by decide)⟩

/-! ## Sequences, occupancy and the bump allocator -/

theorem witness_StoreSeqWritesExactlyItsBytes :
    State.reset.fatal = none ∧ ([0xD0, 0xD1, 0xD2, 0xD3] : List Byte).length = (4 : Word).toNat ∧
    RoomFor State.reset (addrRange 0x1FFE (4 : Word).toNat) ∧ RoomFor (instanceOf 11 0 []) (addrRange 0 (0 : Word).toNat) := by
  decide

theorem witness_StoreSeqFaultsAtFirstByteWithNoRoom :
    Inv (instanceOf 11 0x1000 []) ∧ (instanceOf 11 0x1000 []).fatal = none ∧ ([1, 2] : List Byte).length = (2 : Word).toNat ∧
    1 < (2 : Word).toNat ∧ RoomFor (instanceOf 11 0x1000 []) (addrRange 0x1FFF 1) ∧
    ¬ RoomFor (instanceOf 11 0x1000 []) (addrRange 0x1FFF 2) := by decide

/-- The state of VS5: page 1 occupied up to 0x24. -/
def vs5 : State := withMem [{ id := 1, data := [], freePointer := 0x24 }]

def vs5After : State :=
  { withMem [{ id := 1, data := [(0xFFE, 0xD0), (0xFFF, 0xD1)], freePointer := 0x1000 },
      { id := 2, data := [(0, 0xD2), (1, 0xD3)], freePointer := 2 }] with response := some { st := .ok } }

theorem witness_StoreSeqRaisesFreePointersToItsEnd :
    Inv vs5 ∧ vs5.fatal = none ∧ exec (.storeSeq 0x1FFE 4 [0xD0, 0xD1, 0xD2, 0xD3]) vs5 = .next vs5After ∧
    vs5After.fatal = none := ⟨by decide, by decide, next_of_stateOf (by decide), by decide⟩

theorem witness_StoreSeqThenLoadSeqReturnsIt :
    vs5.fatal = none ∧ ([0xD0, 0xD1, 0xD2, 0xD3] : List Byte).length = (4 : Word).toNat ∧
    exec (.storeSeq 0x1FFE 4 [0xD0, 0xD1, 0xD2, 0xD3]) vs5 = .next vs5After ∧ vs5After.fatal = none :=
  ⟨by decide, by decide, next_of_stateOf (by decide), by decide⟩

/-- The last page of the address space is committed, with one byte of room. -/
def nearTop : State := withMem [{ id := 0xFFFFFFFFFFFFF, data := [], freePointer := 0xFFF }]

theorem witness_NextBlockAnswersIncrease :
    Inv State.reset ∧ exec .nextBlock State.reset = .next (answered State.reset { st := .ok, r := some 0 }) ∧
    exec (.storeSeq 0 1 [7]) (answered State.reset { st := .ok, r := some 0 }) =
      .next (answered (withMem [{ id := 0, data := [(0, 7)], freePointer := 1 }]) { st := .ok }) ∧
    (0 : Word).toNat + (1 : Word).toNat ≤ 2 ^ 64 ∧
    exec .nextBlock (answered (withMem [{ id := 0, data := [(0, 7)], freePointer := 1 }]) { st := .ok }) =
      .next (answered (withMem [{ id := 0, data := [(0, 7)], freePointer := 1 }]) { st := .ok, r := some 1 }) :=
  ⟨by decide, next_of_stateOf (by decide), next_of_stateOf (by decide), by decide, next_of_stateOf (by decide)⟩

theorem freePointers_of_full {s : State} {p : Nat} (h : s.pages = [fullPage p]) (hc : s.cfg.pageSize = 0x1000) :
    ∀ q g, s.freePointerOf q = some g → q ≤ p ∧ g = s.cfg.pageSize := by
  intro q g hq
  simp only [State.freePointerOf, h, findPage] at hq
  by_cases hp : (fullPage p).id = q
  · rw [if_pos hp] at hq
    cases hq
    exact ⟨Nat.le_of_eq hp.symm, hc.symm⟩
  · rw [if_neg hp] at hq
    cases hq

theorem witness_NextUnoccupiedAnswers_room :
    Inv nearTop ∧ nearTop.fatal = none ∧ nearTop.freePointerOf 0xFFFFFFFFFFFFF = some 0xFFF ∧
    0xFFF < nearTop.cfg.pageSize ∧
    (∀ q g, q < 0xFFFFFFFFFFFFF → nearTop.freePointerOf q = some g → g = nearTop.cfg.pageSize) := by
  refine ⟨by decide, by decide, by decide, by decide, fun q g hq hg => ?_⟩
  simp only [State.freePointerOf, nearTop, withMem, findPage] at hg
  rw [if_neg (by omega)] at hg
  cases hg

theorem witness_NextUnoccupiedAnswers_empty : Inv State.reset ∧ State.reset.pages = [] := by decide

theorem witness_NextUnoccupiedAnswers_full :
    Inv (withMem [fullPage 1]) ∧ isCommitted (withMem [fullPage 1]).pages 1 = true ∧
    (∀ q g, (withMem [fullPage 1]).freePointerOf q = some g → q ≤ 1 ∧ g = (withMem [fullPage 1]).cfg.pageSize) ∧
    1 + 1 ≠ (withMem [fullPage 1]).cfg.pageCount :=
  ⟨by decide, by decide, freePointers_of_full rfl (by decide), by decide⟩

theorem witness_NextUnoccupiedAnswers_last :
    Inv (withMem [fullPage 0xFFFFFFFFFFFFF]) ∧
    isCommitted (withMem [fullPage 0xFFFFFFFFFFFFF]).pages 0xFFFFFFFFFFFFF = true ∧
    (∀ q g, (withMem [fullPage 0xFFFFFFFFFFFFF]).freePointerOf q = some g →
      q ≤ 0xFFFFFFFFFFFFF ∧ g = (withMem [fullPage 0xFFFFFFFFFFFFF]).cfg.pageSize) ∧
    0xFFFFFFFFFFFFF + 1 = (withMem [fullPage 0xFFFFFFFFFFFFF]).cfg.pageCount :=
  ⟨by decide, by decide, freePointers_of_full rfl (by decide), by decide⟩

/-! ## Page and backing-store commands -/

theorem witness_PageQueriesAnswerOrFault :
    (withMem [fullPage 1]).fatal = none ∧
    (withMem [fullPage 1]).freePointerOf (pageIdOperand (withMem [fullPage 1]).cfg 1) = some 0x1000 ∧
    (withMem [emptyPage 1]).freePointerOf (pageIdOperand (withMem [emptyPage 1]).cfg 1) = some 0 ∧
    (withMem [fullPage 1]).freePointerOf (pageIdOperand (withMem [fullPage 1]).cfg 2) = none := by decide

theorem witness_PgSetFpSetsOnlyThatPointer :
    (withMem [page1]).fatal = none ∧ (withMem [page1]).cfg.pageSize < (0x1001 : Word).toNat ∧
    (0x1000 : Word).toNat ≤ (withMem [page1]).cfg.pageSize ∧
    isCommitted (withMem [page1]).pages (pageIdOperand (withMem [page1]).cfg 1) = true ∧
    isCommitted (withMem [page1]).pages (pageIdOperand (withMem [page1]).cfg 2) = false := by decide

theorem witness_BsGetAddressResolvesAllocatesOrFaults :
    (withMem [page1]).fatal = none ∧ (withMem [page1]).cfg.pageSize ≤ (0x1000 : Word).toNat ∧
    (0xFFF : Word).toNat < (withMem [page1]).cfg.pageSize ∧
    isCommitted (withMem [page1]).pages (pageIdOperand (withMem [page1]).cfg 1) = true ∧
    isCommitted (withMem [page1]).pages (pageIdOperand (withMem [page1]).cfg 2) = false ∧
    isCommitted (instanceOf 11 0x1FFF [page1]).pages (pageIdOperand (instanceOf 11 0x1FFF [page1]).cfg 2) = false ∧
    0x1FFF < (([page1] : Memory).length + 1) * Config.exampleInstance.pageSize ∧
    (([page1] : Memory).length + 1) * Config.exampleInstance.pageSize ≤ 0x2000 := by decide

theorem witness_BsGetPageAnswersOrFaults :
    (withMem [page1]).fatal = none ∧ isCommitted (withMem [page1]).pages (pageIdOperand (withMem [page1]).cfg 1) = true ∧
    isCommitted (withMem [page1]).pages (pageIdOperand (withMem [page1]).cfg 0xFFFFFFFFFFFFF) = false := by decide

theorem witness_BsFitsComparesExactly :
    State.reset.fatal = none ∧ (0xFFE : Word).toNat + (2 : Word).toNat = State.reset.cfg.pageSize ∧
    ¬ (0xFFFFFFFFFFFFFFFF : Word).toNat + (2 : Word).toNat ≤ State.reset.cfg.pageSize := by decide

/-! ## The loop -/

theorem witness_HostRegisterCommands : State.reset.fatal = none ∧ p1Start.fatal = none := by decide

theorem witness_RunStepAtSentinelAnswersHalted : State.reset.fatal = none ∧ State.reset.pc = 0 := by decide

/-- The bytes of `addi x0, x0, 0` (0x00000013), lowest address first. -/
def nopByte (i : Nat) : Byte := if i = 0 then 0x13 else 0

theorem witness_RunStepPerformsOneCycle :
    p1Start.fatal = none ∧ p1Start.pc ≠ 0 ∧ (∀ i < 4, p1Start.byteAt (addrAdd p1Start.pc i) = some (nopByte i)) ∧
    BitVec.ofNat 32 (byteSum nopByte 4) = 0x00000013 := by decide

/-- A block whose pc stands two bytes before the end of its only page. -/
def atPageEnd : State := { withMem [{ id := 1, data := [(0xFFE, 0x13)], freePointer := 0 }] with pc := 0x1FFE }

theorem witness_FetchFaultsAtFirstUncommittedByte :
    atPageEnd.fatal = none ∧ atPageEnd.pc ≠ 0 ∧ (∀ i < 2, Committed atPageEnd (addrAdd atPageEnd.pc i)) ∧
    ¬ Committed atPageEnd (addrAdd atPageEnd.pc 2) ∧ (atPageEnd.beginRun .simple false).run.isSome = true := by decide

theorem witness_KernelAccessesFollowTheCommands :
    State.reset.fatal = none ∧
    exec (storeInstr .eight 0x1FFD 0x0807060504030201) State.reset = .next (answered (withMem vm5) { st := .ok }) ∧
    exec (storeInstr .four 0x1FFE 0) (instanceOf 11 0x1000 []) = .next (fatalState (instanceOf 11 0x1000 []) capacityRecord) ∧
    exec (.storeSeq 0x1FFE 4 [0xD0, 0xD1, 0xD2, 0xD3]) vs5 = .next vs5After ∧
    exec (loadInstr .byte 0x100F) (withMem [page1]) = .next (answered (withMem [page1]) { st := .ok, r := some 15 }) ∧
    exec (loadInstr .byte 0x1000) State.reset = .next (fatalState State.reset faultRecord) ∧
    exec (.loadSeq 0x100E 2) (withMem [page1]) = .next (answered (withMem [page1]) { st := .ok, q := some [14, 15] }) ∧
    exec (.loadSeq 0x1000 1) State.reset = .next (fatalState State.reset faultRecord) :=
  ⟨by decide, next_of_stateOf (by decide), next_of_stateOf (by decide), next_of_stateOf (by decide),
    next_of_stateOf (by decide), next_of_stateOf (by decide), next_of_stateOf (by decide), next_of_stateOf (by decide)⟩

theorem witness_RunToCompletionByMode : State.reset.fatal = none ∧ p1Start.fatal = none := by decide

theorem witness_SimpleRunPass :
    (p1Start.beginRun .simple true).fatal = none ∧
    (p1Start.beginRun .simple true).run = some { measure := some 0 } ∧ (p1Start.beginRun .simple true).pc ≠ 0 ∧
    (∀ i < 4, (p1Start.beginRun .simple true).byteAt (addrAdd (p1Start.beginRun .simple true).pc i) = some (nopByte i)) ∧
    (State.reset.beginRun .simple true).run = some { measure := some 0 } ∧ (State.reset.beginRun .simple true).pc = 0 := by
  decide

/-- P1 runs its five instructions with the spec's test kernel; at the sentinel a run of any kernel halts with no cycle. -/
theorem witness_SimpleRunHaltsWithItsCount :
    (p1Start.beginRun .simple false).fatal = none ∧ (p1Start.beginRun .simple false).run = some { measure := none } ∧
    cyclesComplete kMin 5 (p1Start.beginRun .simple false) =
      some { p1Start.beginRun .simple false with pc := 0, icount := 5 } ∧
    cyclesComplete Config.kernel 0 (State.reset.beginRun .simple true) = some (State.reset.beginRun .simple true) ∧
    (State.reset.beginRun .simple true).pc = 0 := ⟨by decide, by decide, by decide, rfl, by decide⟩

/-! ## The loader -/

theorem witness_LoaderErrorChangesNothing :
    State.reset.fatal = none ∧ checkImage (imageE1.take 63) = some .truncatedHeader ∧
    checkImage (elfHead 1 1 0xF3 0x38 1 1 0x78 0 0) = some .badClass := by decide +kernel

theorem witness_LoadElfWritesItsSegments :
    State.reset.fatal = none ∧ checkImage imageE1 = none ∧ RoomFor State.reset (segmentAddresses imageE1) ∧
    RoomFor (instanceOf 11 0x1000 []) (segmentAddresses imageE1) := by decide +kernel

theorem witness_LoadElfFaultsAtFirstByteWithNoRoom :
    Inv (instanceOf 11 0 []) ∧ (instanceOf 11 0 []).fatal = none ∧ checkImage imageE1 = none ∧
    (segmentAddresses imageE1)[0]? = some 0x10000 ∧
    RoomFor (instanceOf 11 0 []) ((segmentAddresses imageE1).take 0) ∧
    ¬ RoomFor (instanceOf 11 0 []) ((segmentAddresses imageE1).take 1) := by decide +kernel

theorem witness_LoadElfRaisesFreePointers :
    Inv State.reset ∧ checkImage imageE1 = none ∧ exec (.loadElf (.image imageE1)) State.reset =
      .next (answered (withMem [pageE1]) { st := .ok, r := some 0x10000 }) :=
  ⟨by decide, by decide +kernel, next_of_stateOf (by decide +kernel)⟩

/-! ## Fatal faults -/

theorem witness_FatalEntryIsTheSameForEveryCommand :
    State.reset.fatal = none ∧ exec (.loadByte 0x1000) State.reset = .next (fatalState State.reset faultRecord) ∧
    (fatalState State.reset faultRecord).fatal = some faultRecord :=
  ⟨by decide, next_of_stateOf (by decide), by decide⟩

theorem witness_CausesByCommand :
    exec (.pgFree 1) State.reset = .next (fatalState State.reset faultRecord) ∧
    exec (.storeTwo 0x1FFF 0) (instanceOf 11 0x1000 []) = .next (fatalState (instanceOf 11 0x1000 []) capacityRecord) :=
  ⟨next_of_stateOf (by decide), next_of_stateOf (by decide)⟩

/-- A step of a run takes a fatal fault of its fetch (R223). -/
theorem witness_CausesByCommand_run :
    (atPageEnd.beginRun .simple true).fatal = none ∧ (atPageEnd.beginRun .simple true).run.isSome = true ∧
    step (atPageEnd.beginRun .simple true) =
      .next (fatalState (atPageEnd.beginRun .simple true) ⟨.pageFault, 0x2000, .read⟩) :=
  ⟨by decide, by decide, next_of_stateOf (by decide)⟩

theorem witness_FatalStateIsNeverLeft :
    stopped.fatal = some faultRecord ∧ step (stopped.submit { op := 0x23 }) = .next stopped :=
  ⟨by decide, next_of_stateOf (by decide)⟩

/-! ## The whole machine -/

theorem witness_ReadingCommandsChangeNothing :
    onlyReads (.bsGetAddress 1 0xFFF false) = true ∧ exec (.bsGetAddress 1 0xFFF false) (withMem [page1]) =
      .next (answered (withMem [page1]) { st := .ok, r := some 0x1FFF }) := ⟨by decide, next_of_stateOf (by decide)⟩

theorem witness_RegistersHaveOnlyTheirWriters :
    exec (.setPc 4) State.reset = .next (answered { State.reset with pc := 4 } { st := .ok }) ∧
    exec (.runToCompletion 2 false) { State.reset with icount := 9 } =
      .next (answered { State.reset with runMode := .disabled } { st := .ok }) :=
  ⟨next_of_stateOf (by decide), next_of_stateOf (by decide)⟩

theorem witness_FreePointersHaveOnlyTheirWriters :
    exec (.pgSetFp 1 0) (withMem [page1]) =
      .next (answered (withMem [{ page1 with freePointer := 0 }]) { st := .ok }) ∧
    (withMem [page1]).freePointerOf 1 = some 0x10 ∧
    (answered (withMem [{ page1 with freePointer := 0 }]) { st := .ok }).freePointerOf 1 ≠ some 0x10 :=
  ⟨next_of_stateOf (by decide), by decide, by decide⟩

theorem witness_FreePointersHaveOnlyTheirWriters_step :
    step ((withMem [page1]).submit { op := 0x19, p := 1, v := 0 }) =
      .next (answered (withMem [{ page1 with freePointer := 0 }]) { st := .ok }) ∧
    ((withMem [page1]).submit { op := 0x19, p := 1, v := 0 }).freePointerOf 1 = some 0x10 ∧
    (answered (withMem [{ page1 with freePointer := 0 }]) { st := .ok }).freePointerOf 1 ≠ some 0x10 :=
  ⟨next_of_stateOf (by decide), by decide, by decide⟩

theorem witness_CommittedPagesStay :
    step ((withMem [page1]).submit { op := 0x05, a := 0x2000, d := 1 }) =
      .next (answered (withMem [page1, { id := 2, data := [(0, 1)], freePointer := 0 }]) { st := .ok }) ∧
    isCommitted (withMem [page1]).pages 1 = true := ⟨next_of_stateOf (by decide), by decide⟩

theorem witness_StepKeepsTheInvariant :
    Inv ((withMem [page1]).submit { op := 0x05, a := 0x2000, d := 1 }) ∧
    step ((withMem [page1]).submit { op := 0x05, a := 0x2000, d := 1 }) =
      .next (answered (withMem [page1, { id := 2, data := [(0, 1)], freePointer := 0 }]) { st := .ok }) :=
  ⟨by decide, next_of_stateOf (by decide)⟩

end Sys2Proof.Tests
end

section
/-! The port and the run loop: an equation of `step` for each thing it can do, and the requests a pass of a run keeps. -/

namespace Sys2Proof.Proofs

open Sys2Proof.Machine

/-! ## A step, case by case -/

theorem step_of_run {s : State} {run : Run} (hrun : s.run = some run) : step s = continueRun Config.kernel run s := by
  rw [step, hrun]

theorem step_of_idle {s : State} (hrun : s.run = none) (hreq : s.requests = []) : step s = .next s := by
  simp [step, hrun, State.takeRequest, hreq]

theorem step_of_request {s : State} {r : Request} {rest : List Request} (hrun : s.run = none)
    (hreq : s.requests = r :: rest) : step s = runRequest r { s with requests := rest } := by
  simp [step, hrun, State.takeRequest, hreq]

theorem runRequest_of_decode {r : Request} {i : Instr} (hdec : decode r = .ok i) (s : State) :
    runRequest r s = exec i s := by
  rw [runRequest, hdec]

/-! ## A pass of a run -/

/-- Whichever way a pass of a run ends (R218, R223, R224, R245), the port's requests wait. -/
theorem continueRun_requests {K : Kernel} {run : Run} {s t : State} (h : continueRun K run s = .next t) :
    t.requests = s.requests := by
  cases hfatal : s.fatal with
  | some f =>
    rw [continueRun_of_fatal hfatal] at h
    cases h
    exact State.answer_requests s _
  | none =>
    obtain hend | ⟨m, pc, ks, -, hdone⟩ | ⟨k, m, -, hkernel⟩ | ⟨f, -, hraise⟩ := continueRun_cases hfatal K run
    · rw [hend] at h
      cases h
      exact State.endRun_requests s run _
    · rw [hdone] at h
      cases h
      exact State.writeBack_requests s m pc ks
    · rw [hkernel] at h
      cases h
      exact State.endRun_requests (s.withPages m) run _
    · rw [hraise] at h
      cases h
      exact State.raiseFatal_requests s f

/-! ## The obligations -/

/-- Settles O7: a step with a run in progress is a pass of that run, which keeps the requests; without run and request the
step is the idle one. -/
theorem oneCommandAtATime : Obligations.OneCommandAtATime := by
  unfold Obligations.OneCommandAtATime
  refine ⟨fun s t hrun hstep => ?_, fun s hrun hreq => step_of_idle hrun hreq⟩
  obtain ⟨run, hrun⟩ := Option.isSome_iff_exists.mp hrun
  rw [step_of_run hrun] at hstep
  exact continueRun_requests hstep

/-- Settles O4, by the equation of a step that takes a request and that of a request which decodes. -/
theorem stepRunsDecodedCommand : Obligations.StepRunsDecodedCommand := by
  unfold Obligations.StepRunsDecodedCommand
  intro s r rest i hrun hreq hdec
  rw [step_of_request hrun hreq, runRequest_of_decode hdec]

end Sys2Proof.Proofs
end

section
/-! The invariant of the block and its committed pages: one relation between the states before and after, kept by every
command, by every pass of a run, and so by every step. -/

namespace Sys2Proof.Proofs

open Sys2Proof.Machine

/-- Only a Simple run is in progress, and run_mode is never BasicBlockCached (R217, R222): the part of `Inv` that memory and the
fault record play no part in. -/
def RunModeInRange (s : State) : Prop := (s.run.isSome = true → s.runMode = .simple) ∧ s.runMode ≠ .basicBlockCached

/-- What every step keeps: the invariant and, unless the state after is fatal, every committed page (R23, R122). -/
structure KeepsBlock (s t : State) : Prop where
  inv : Inv s → Inv t
  committed : t.fatal = none → ∀ p, isCommitted s.pages p = true → isCommitted t.pages p = true

/-! ## The ways a state changes -/

/-- An answer and the requests left on the port play no part in the invariant. -/
theorem keepsBlock_answer (s : State) (r : Response) : KeepsBlock s (s.answer r) := ⟨id, fun _ _ => id⟩

theorem keepsBlock_of_requests {s t : State} {rest : List Request} (h : KeepsBlock { s with requests := rest } t) :
    KeepsBlock s t := ⟨h.inv, h.committed⟩

/-- Without a fault it is enough that memory is kept and the run mode stays in range. -/
theorem keepsBlock_of_safe {s t : State} (hcfg : t.cfg = s.cfg) (hsafe : t.fatal = none)
    (hmem : KeepsMemory s.cfg s.pages t.pages) (hmode : RunModeInRange s → RunModeInRange t) : KeepsBlock s t where
  inv := by
    rintro ⟨hwf, hceiling, -, hrun⟩
    obtain ⟨hwf', hceiling'⟩ := hmem.good ⟨hwf, hceiling⟩
    rw [← hcfg] at hwf' hceiling'
    exact ⟨hwf', hceiling', by simp [hsafe], hmode hrun⟩
  committed _ := hmem.committed

/-- Fatal entry releases memory and ends the run (R241), so there is nothing left to be out of range. -/
theorem keepsBlock_raiseFatal (s : State) (f : FatalRecord) : KeepsBlock s (s.raiseFatal f) where
  inv := by
    rintro ⟨-, -, -, -, hmode⟩
    exact ⟨wf_nil s.cfg, by simp, fun _ => ⟨rfl, rfl⟩, by simp, hmode⟩
  committed hsafe := by simp at hsafe

theorem runModeInRange_beginRun_simple (s : State) (x : Bool) : RunModeInRange (s.beginRun .simple x) :=
  ⟨fun _ => rfl, by simp⟩

theorem runModeInRange_endRun {s : State} (h : s.runMode ≠ .basicBlockCached) (run : Run) (r : Response) :
    RunModeInRange (s.endRun run r) := ⟨by simp, h⟩

/-! ## Commands, passes of a run, steps -/

theorem keepsBlock_of_effect {i : Instr} {s t : State} (hsafe : s.fatal = none) (h : Effect i s (.next t)) :
    KeepsBlock s t := by
  cases h with
  | answers r => exact keepsBlock_answer s r
  | stores m r hi hm hf => exact keepsBlock_of_safe rfl hsafe hm id
  | faults f hf => exact keepsBlock_raiseFatal s f
  | setsPc d hi => exact keepsBlock_of_safe rfl hsafe (.refl _ _) id
  | steps m pc ks hi hm => exact keepsBlock_of_safe rfl hsafe hm id
  | begins x hi =>
    exact keepsBlock_of_safe rfl hsafe (.refl _ _) fun _ => runModeInRange_beginRun_simple s x
  | idles x run hi hrun =>
    exact keepsBlock_of_safe rfl hsafe (.refl _ _) fun _ => runModeInRange_endRun (by simp) run okDone

theorem exec_keepsBlock {i : Instr} {s t : State} (h : exec i s = .next t) : KeepsBlock s t := by
  cases hfatal : s.fatal with
  | some f =>
    rw [exec_of_fatal hfatal] at h
    cases h
    exact keepsBlock_answer s _
  | none => exact keepsBlock_of_effect hfatal (h ▸ exec_effect hfatal i)

theorem continueRun_keepsBlock {K : Kernel} {run : Run} {s t : State} (h : continueRun K run s = .next t) :
    KeepsBlock s t := by
  cases hfatal : s.fatal with
  | some f =>
    rw [continueRun_of_fatal hfatal] at h
    cases h
    exact keepsBlock_answer s _
  | none =>
    obtain hend | ⟨m, pc, ks, hm, hdone⟩ | ⟨k, m, hm, hkernel⟩ | ⟨f, -, hraise⟩ := continueRun_cases hfatal K run
    · rw [hend] at h
      cases h
      exact keepsBlock_of_safe rfl hfatal (.refl _ _) fun hmode => runModeInRange_endRun hmode.2 run okDone
    · rw [hdone] at h
      cases h
      exact keepsBlock_of_safe rfl hfatal hm id
    · rw [hkernel] at h
      cases h
      exact keepsBlock_of_safe rfl hfatal hm fun hmode => runModeInRange_endRun (s := s.withPages m) hmode.2 run _
    · rw [hraise] at h
      cases h
      exact keepsBlock_raiseFatal s f

/-- A rejected request that has a next state only answers (R92, R251, R252). -/
theorem rejectRequest_next {e : DecodeError} {s t : State} (h : rejectRequest e s = .next t) :
    ∃ r, t = s.answer r := by
  cases hfatal : s.fatal with
  | some f => cases e <;> exact ⟨_, by simpa [rejectRequest, unlessFatal_of_fatal hfatal] using h.symm⟩
  | none =>
    cases e with
    | illegalCommand op => exact ⟨_, by simpa [rejectRequest, unlessFatal_of_safe hfatal] using h.symm⟩
    | sequenceLength => simp [rejectRequest, unlessFatal_of_safe hfatal] at h

theorem step_keepsBlock {s t : State} (h : step s = .next t) : KeepsBlock s t := by
  obtain ⟨run, -, hpass⟩ | ⟨-, -, hidle⟩ | ⟨r, rest, -, -, ⟨i, -, hexec⟩ | ⟨e, -, hreject⟩⟩ := step_cases s
  · exact continueRun_keepsBlock (hpass ▸ h)
  · rw [hidle] at h
    cases h
    exact ⟨id, fun _ _ => id⟩
  · exact keepsBlock_of_requests (exec_keepsBlock (hexec ▸ h))
  · obtain ⟨a, rfl⟩ := rejectRequest_next (hreject ▸ h)
    exact keepsBlock_of_requests (keepsBlock_answer _ a)

/-! ## The obligations -/

/-- Settles O52: a pass of a run, a command and a rejected request each keep the block's invariant. -/
theorem stepKeepsTheInvariant : Obligations.StepKeepsTheInvariant := by
  unfold Obligations.StepKeepsTheInvariant
  exact fun s t hinv hstep => (step_keepsBlock hstep).inv hinv

/-- Settles O49, by the same relation between the states before and after a step. -/
theorem committedPagesStay : Obligations.CommittedPagesStay := by
  unfold Obligations.CommittedPagesStay
  exact fun s t p hstep hsafe hp => (step_keepsBlock hstep).committed hsafe p hp

/-- Settles O51: after construction there is no memory, no fault record and no run, and the mode is Simple. -/
theorem constructionMeetsTheInvariant : Obligations.ConstructionMeetsTheInvariant := by
  unfold Obligations.ConstructionMeetsTheInvariant
  exact fun c ks => ⟨wf_nil c, by simp, by simp, by simp, by simp⟩

end Sys2Proof.Proofs
end

section
/-! The registers of the loop and their writers. -/

namespace Sys2Proof.Proofs

open Sys2Proof.Machine

/-- Settles O47: a command that only answers, stores or faults writes no register; each of the other effects is one
command's own. -/
theorem registersHaveOnlyTheirWriters : Obligations.RegistersHaveOnlyTheirWriters := by
  unfold Obligations.RegistersHaveOnlyTheirWriters
  intro i s t h
  cases hfatal : s.fatal with
  | some f =>
    rw [exec_of_fatal hfatal] at h
    cases h
    simp
  | none =>
    have heffect : Effect i s (.next t) := h ▸ exec_effect hfatal i
    cases heffect with
    | answers r => simp
    | stores m r hi hm hf => simp
    | faults f hf => simp
    | setsPc d hi => simp [hi]
    | steps m pc ks hi hm => simp [hi]
    | begins x hi => simp [hi]
    | idles x run hi hrun => simp [hi]

end Sys2Proof.Proofs
end

section
/-! Stores of 1, 2, 4 and 8 bytes with room under the ceiling: the command as a store of its list of bytes, and those bytes. -/

namespace Sys2Proof.Proofs

open Sys2Proof.Machine Sys2Proof.Statements

/-- The four store commands are one command with a width (R148 to R152). -/
theorem exec_storeInstr {s : State} (hsafe : s.fatal = none) (w : Width) (a d : Word) :
    exec (storeInstr w a d) s = storeThrough s (storeWidth s.cfg s.pages w a d) okDone := by
  cases w <;> exact unlessFatal_of_safe hsafe _

/-- Byte `i` of the little-endian bytes of a value (R56). -/
theorem leBytes_getElem? {n i : Nat} (h : i < n) (v : Nat) :
    (leBytes n v)[i]? = some (BitVec.ofNat 8 (v / 256 ^ i)) := by
  induction n generalizing i v with
  | zero => omega
  | succ n ih =>
    cases i with
    | zero => simp [leBytes]
    | succ i =>
      rw [leBytes, List.getElem?_cons_succ, ih (Nat.lt_of_succ_lt_succ h), Nat.div_div_eq_div_mul, ← Nat.pow_succ']

/-- The bits of `D` above its N bytes play no part in an N-byte store (R86). -/
theorem leBytes_storeData (w : Width) (d : Word) :
    leBytes (Width.bytes w) (storeData w d) = leBytes (Width.bytes w) d.toNat := by
  rw [storeData, Nat.pow_mul]
  exact leBytes_mod _ _

theorem byteOf_eq (d : Word) (i : Nat) : byteOf d i = BitVec.ofNat 8 (d.toNat / 256 ^ i) := by
  apply BitVec.eq_of_toNat_eq
  simp [byteOf, Nat.shiftRight_eq_div_pow, Nat.pow_mul]

theorem width_bytes_le (w : Width) : Width.bytes w ≤ 8 := by cases w <;> decide

theorem storeWidth_eq_storeBytes_toNat (c : Config) (m : Memory) (w : Width) (a d : Word) :
    storeWidth c m w a d = storeBytes c m a (leBytes (Width.bytes w) d.toNat) := by
  rw [storeWidth_eq_storeBytes, leBytes_storeData]

theorem memView_storeWidth {s : State} {w : Width} {a d : Word} {m : Memory}
    (h : storeWidth s.cfg s.pages w a d = .ok m) (x : Word) :
    memView s.cfg m x =
      if (x - a).toNat < Width.bytes w then some (byteOf d (x - a).toNat)
      else unstored s (addrRange a (Width.bytes w)) x := by
  have hlen := leBytes_length (Width.bytes w) d.toNat
  rw [storeWidth_eq_storeBytes_toNat] at h
  rw [memView_storeBytes (by rw [hlen]; have := width_bytes_le w; omega) h, hlen]
  split
  · rename_i hx
    rw [leBytes_getElem? hx, byteOf_eq]
  · rfl

theorem freePointerIn_storeWidth {s : State} {w : Width} {a d : Word} {m : Memory}
    (h : storeWidth s.cfg s.pages w a d = .ok m) (p : Nat) :
    freePointerIn m p = freePointerKept s (addrRange a (Width.bytes w)) p := by
  rw [storeWidth_eq_storeBytes_toNat] at h
  rw [freePointerIn_storeBytes h, leBytes_length, freePointerKept, freePointerOf_eq]
  cases freePointerIn s.pages p <;> rfl

theorem storeWidth_of_room {s : State} {w : Width} {a : Word} (d : Word)
    (hroom : RoomFor s (addrRange a (Width.bytes w))) : ∃ m, storeWidth s.cfg s.pages w a d = .ok m := by
  rw [storeWidth_eq_storeBytes_toNat]
  exact storeBytes_of_room (by rw [leBytes_length]; exact (roomFor_iff s _).1 hroom)

/-- Settles O14: with room the store completes, and its bytes and free pointers are those of a store of the list of its
bytes. -/
theorem storeWritesExactlyItsBytes : Obligations.StoreWritesExactlyItsBytes := by
  unfold Obligations.StoreWritesExactlyItsBytes
  intro s w a d hsafe hroom
  obtain ⟨m, hm⟩ := storeWidth_of_room d hroom
  refine ⟨m, ?_, memView_storeWidth hm, fun p => freePointerIn_storeWidth hm p⟩
  rw [exec_storeInstr hsafe, hm]
  rfl

end Sys2Proof.Proofs
end

section
/-! Addresses: the page id and the offset as the bit fields of the address, and their join. -/

namespace Sys2Proof.Proofs

open Sys2Proof.Machine

/-- `addr[63:OFFSET_BITS]` (R50). -/
theorem pageIdOf_eq_shiftRight (c : Config) (a : Word) : pageIdOf c a = (a >>> c.offsetBits).toNat := by
  rw [BitVec.toNat_ushiftRight, Nat.shiftRight_eq_div_pow, pageIdOf, Config.pageSize]

/-- `addr[OFFSET_BITS-1:0]` (R50); OFFSET_BITS is at most 63, so the mask fits in a word. -/
theorem offsetOf_eq_mask (c : Config) (a : Word) :
    offsetOf c a = (a &&& BitVec.ofNat 64 (2 ^ c.offsetBits - 1)).toNat := by
  have hmask : 2 ^ c.offsetBits - 1 < 2 ^ 64 := by
    have hle : 2 ^ c.offsetBits ≤ 2 ^ 64 :=
      Nat.pow_le_pow_right (by decide) (by simp only [Config.offsetBits]; omega)
    omega
  rw [BitVec.toNat_and, BitVec.toNat_ofNat, Nat.mod_eq_of_lt hmask, Nat.and_two_pow_sub_one_eq_mod, offsetOf,
    Config.pageSize]

/-- Settles O8: the fields are a shift and a mask, and both inverse laws of `join` are the model's own. -/
theorem splitAndJoinAreInverse : Obligations.SplitAndJoinAreInverse := by
  unfold Obligations.SplitAndJoinAreInverse
  intro c
  refine ⟨fun a => ⟨pageIdOf_eq_shiftRight c a, offsetOf_eq_mask c a, joinAddr_split c a⟩, fun pid off hpid hoff => ?_⟩
  exact (joinAddr_spec hpid hoff).2

end Sys2Proof.Proofs
end

section
/-! Byte order: the bytes of an operand and the value of a list of bytes in the words of the statements, and from them loads and
stores of 1, 2, 4 and 8 bytes as the accesses to their single bytes. -/

namespace Sys2Proof.Proofs

open Sys2Proof.Machine Sys2Proof.Statements

/-! ## Lists of bytes -/

/-- The bytes a store of `d` puts in memory, lowest address first (R56). -/
theorem leBytes_eq_map_byteOf (n : Nat) (d : Word) : leBytes n d.toNat = (List.range n).map (byteOf d) := by
  refine List.ext_getElem (by simp [leBytes_length]) fun i hi _ => ?_
  rw [leBytes_length] at hi
  have hbyte := leBytes_getElem? hi d.toNat
  rw [← byteOf_eq] at hbyte
  rw [List.getElem_map, List.getElem_range]
  exact (List.getElem?_eq_some_iff.1 hbyte).2

/-- The value of a list of bytes is the sum of its bytes times `2^(8i)` (R56). -/
theorem leValue_map_range (f : Nat → Byte) (n : Nat) : leValue ((List.range n).map f) = byteSum f n := by
  induction n with
  | zero => rfl
  | succ n ih =>
    rw [List.range_succ, List.map_append, leValue_append, ih, List.length_map, List.length_range, byteSum, Nat.pow_mul]
    simp [leValue]

theorem leValue_eq_byteSum (bs : List Byte) : leValue bs = byteSum (fun i => bs.getD i 0) bs.length := by
  rw [← leValue_map_range]
  congr 1
  refine List.ext_getElem (by simp) fun i hi _ => ?_
  simp [hi]

/-! ## Loads -/

/-- A load of a width is the value of its byte loads, ascending, fault included (R143, R144, R159). -/
theorem loadWidth_eq_loadBytes (c : Config) (m : Memory) (w : Width) (a : Word) :
    loadWidth c m w a = (loadBytes c m a (Width.bytes w)).map leValue := by
  rw [loadWidth, loadN_eq_loadBytes, Width.bytes]
  cases loadBytes c m a (2 ^ Width.log2 w) <;> rfl

theorem loadWidth_of_view {c : Config} {m : Memory} {w : Width} {a : Word} {f : Nat → Byte}
    (h : ∀ i < Width.bytes w, memView c m (addrAdd a i) = some (f i)) :
    loadWidth c m w a = .ok (byteSum f (Width.bytes w)) := by
  rw [loadWidth_eq_loadBytes, loadBytes_of_view h, ← leValue_map_range]
  rfl

/-- The four load commands are one command with a width (R141, R145 to R147). -/
theorem exec_loadInstr {s : State} (hsafe : s.fatal = none) (w : Width) (a : Word) :
    exec (loadInstr w a) s = answerFrom s (loadWidth s.cfg s.pages w a) fun v => okResult (loadResult v) := by
  cases w with
  | byte =>
    refine (unlessFatal_of_safe hsafe _).trans ?_
    rw [loadWidth, Width.log2, loadN]
    cases loadByte s.cfg s.pages a <;> rfl
  | two => exact unlessFatal_of_safe hsafe _
  | four => exact unlessFatal_of_safe hsafe _
  | eight => exact unlessFatal_of_safe hsafe _

theorem memView_of_loadByte {c : Config} {m : Memory} {a : Word} {b : Byte} (h : loadByte c m a = .ok b) :
    memView c m a = some b := by
  rw [loadByte_eq] at h
  cases hview : memView c m a with
  | none => simp [hview] at h
  | some v => simpa [hview] using h

/-- A LOAD_BYTE that answers a byte has read it in memory (R141). -/
theorem byteAt_of_exec_loadByte {s : State} {a : Word} {b : Byte} (hsafe : s.fatal = none)
    (h : exec (.loadByte a) s = .next (answered s { st := .ok, r := some (b.setWidth 64) })) :
    s.byteAt a = some b := by
  obtain ⟨v, hv, hanswer⟩ | ⟨f, -, hraise⟩ := answerFrom_next ((unlessFatal_of_safe hsafe _).symm.trans h)
  · have hresult : b.setWidth 64 = v.setWidth 64 := by
      simpa [answered, okResult, loadResult, BitVec.ofNat_toNat] using congrArg State.response hanswer
    have hbyte : b = v := by simpa using congrArg (BitVec.setWidth 8) hresult
    rw [State.byteAt, memView_of_loadByte hv, hbyte]
  · have hfatal := congrArg State.fatal hraise
    simp [answered, hsafe] at hfatal

/-! ## The obligations -/

/-- Settles O11: a load reads one byte after the other, and memory holds each of them. -/
theorem loadOfCommittedBytesCompletes : Obligations.LoadOfCommittedBytesCompletes := by
  unfold Obligations.LoadOfCommittedBytesCompletes
  intro s w a f hsafe hbytes
  rw [exec_loadInstr hsafe, loadWidth_of_view hbytes]
  rfl

/-- Settles O9: the store by the bytes it leaves in memory, the load by O11 from the bytes that LOAD_BYTE has read. -/
theorem dataIsLittleEndian : Obligations.DataIsLittleEndian := by
  unfold Obligations.DataIsLittleEndian
  intro s w a _ hsafe
  refine ⟨fun d t hstore ht i hi => ?_, fun f hloads => ?_⟩
  · rw [exec_storeInstr hsafe] at hstore
    obtain ⟨m, hm, rfl⟩ | ⟨f, -, rfl⟩ := storeThrough_next hstore
    · have hoffset : (addrAdd a i - a).toNat = i := sub_toNat_addrAdd (by have := width_bytes_le w; omega)
      have hbyte := memView_storeWidth hm (addrAdd a i)
      rw [hoffset, if_pos hi] at hbyte
      exact hbyte
    · simp at ht
  · exact loadOfCommittedBytesCompletes s w a f hsafe fun i hi => byteAt_of_exec_loadByte hsafe (hloads i hi)

/-- Settles O16: a store and a load of a width, each as one list of byte accesses. -/
theorem wideAccessEqualsByteAccesses : Obligations.WideAccessEqualsByteAccesses := by
  unfold Obligations.WideAccessEqualsByteAccesses
  refine fun c m w a => ⟨fun d => ?_, ?_⟩
  · rw [storeWidth_eq_storeBytes_toNat, leBytes_eq_map_byteOf]
  · rw [loadWidth_eq_loadBytes]
    cases hload : loadBytes c m a (Width.bytes w) with
    | error f => rfl
    | ok bs => rw [Except.map, Except.map, leValue_eq_byteSum, loadBytes_length hload]

end Sys2Proof.Proofs
end

section
/-! The commands that only read, and the writers of the free pointers. -/

namespace Sys2Proof.Proofs

open Sys2Proof.Machine

/-! ## Reading commands -/

/-- Every other effect is that of a command which writes. -/
theorem answers_of_onlyReads {i : Instr} {s t : State} (hread : onlyReads i = true) (ht : t.fatal = none)
    (h : Effect i s (.next t)) : ∃ r, t = s.answer r := by
  cases h with
  | answers r => exact ⟨r, rfl⟩
  | stores m r hi hm hf => simp [hi] at hread
  | faults f hf => simp at ht
  | setsPc d hi => simp [hi, onlyReads] at hread
  | steps m pc ks hi hm => simp [hi, onlyReads] at hread
  | begins x hi => simp [hi, onlyReads] at hread
  | idles x run hi hrun => simp [hi, onlyReads] at hread

/-- Settles O46: a command that only reads has no other effect than its answer. -/
theorem readingCommandsChangeNothing : Obligations.ReadingCommandsChangeNothing := by
  unfold Obligations.ReadingCommandsChangeNothing
  intro i s t hread hsafe hexec ht
  obtain ⟨r, rfl⟩ := answers_of_onlyReads hread ht (hexec ▸ exec_effect hsafe i)
  rfl

/-! ## Free pointers -/

theorem keepsFreePointers_refl (m : Memory) : KeepsFreePointers m m := fun _ _ h => h

theorem safe_of_exec_safe {i : Instr} {s t : State} (h : exec i s = .next t) (ht : t.fatal = none) :
    s.fatal = none := by
  cases hfatal : s.fatal with
  | none => rfl
  | some f =>
    rw [exec_of_fatal hfatal] at h
    cases h
    simp [hfatal] at ht

/-- A command that completes moves no free pointer of a committed page, or is one of R64 and R193. -/
theorem exec_keepsFreePointers_or_moves {i : Instr} {s t : State} (h : exec i s = .next t) (ht : t.fatal = none) :
    KeepsFreePointers s.pages t.pages ∨ MovesFreePointers i := by
  have heffect : Effect i s (.next t) := h ▸ exec_effect (safe_of_exec_safe h ht) i
  cases heffect with
  | answers r => exact .inl (keepsFreePointers_refl _)
  | stores m r hi hm hf => exact hf
  | faults f hf => simp at ht
  | setsPc d hi => exact .inl (keepsFreePointers_refl _)
  | steps m pc ks hi hm => exact .inr (.inr (.inr (.inr hi)))
  | begins x hi => exact .inl (keepsFreePointers_refl _)
  | idles x run hi hrun => exact .inl (keepsFreePointers_refl _)

/-- The pass of a run at the sentinel performs no cycle (R218). -/
theorem continueRun_pages_of_halted {K : Kernel} {run : Run} {s t : State} (hpc : s.pc = 0)
    (h : continueRun K run s = .next t) : t.pages = s.pages := by
  cases hfatal : s.fatal with
  | some f =>
    rw [continueRun_of_fatal hfatal] at h
    cases h
    rfl
  | none =>
    rw [continueRun, unlessFatal_of_safe hfatal, if_pos hpc] at h
    cases h
    rfl

/-- A step that completes moves no free pointer of a committed page, or performs a cycle of a run, or runs one of the commands
of R64 and R193. -/
theorem step_keepsFreePointers_or_moves {s t : State} (h : step s = .next t) (ht : t.fatal = none) :
    KeepsFreePointers s.pages t.pages ∨ (s.run.isSome = true ∧ s.pc ≠ 0) ∨
      (s.run = none ∧ ∃ r rest i, s.requests = r :: rest ∧ decode r = .ok i ∧ MovesFreePointers i) := by
  obtain ⟨run, hrun, hpass⟩ | ⟨-, -, hidle⟩ | ⟨r, rest, hrun, hreq, ⟨i, hdec, hexec⟩ | ⟨e, -, hreject⟩⟩ := step_cases s
  · by_cases hpc : s.pc = 0
    · rw [continueRun_pages_of_halted hpc (hpass.symm.trans h)]
      exact .inl (keepsFreePointers_refl _)
    · exact .inr (.inl ⟨by simp [hrun], hpc⟩)
  · rw [hidle] at h
    cases h
    exact .inl (keepsFreePointers_refl _)
  · obtain hkeep | hmove := exec_keepsFreePointers_or_moves (hexec ▸ h) ht
    · exact .inl hkeep
    · exact .inr (.inr ⟨hrun, r, rest, i, hreq, hdec, hmove⟩)
  · obtain ⟨a, rfl⟩ := rejectRequest_next (hreject ▸ h)
    exact .inl (keepsFreePointers_refl _)

/-- Settles O48: where a free pointer has moved, the command or step is not one that keeps them all. -/
theorem freePointersHaveOnlyTheirWriters : Obligations.FreePointersHaveOnlyTheirWriters := by
  unfold Obligations.FreePointersHaveOnlyTheirWriters
  refine ⟨fun i s t p f hexec ht hf hmoved => ?_, fun s t p f hstep ht hf hmoved => ?_⟩
  · exact (exec_keepsFreePointers_or_moves hexec ht).resolve_left fun hkeep => hmoved (hkeep p f hf)
  · exact (step_keepsFreePointers_or_moves hstep ht).resolve_left fun hkeep => hmoved (hkeep p f hf)

end Sys2Proof.Proofs
end

section
/-! The backing-store commands. -/

namespace Sys2Proof.Proofs

open Sys2Proof.Machine Sys2Proof.Statements

/-! ## BS_FITS -/

/-- Operands `O` and `S` of the request are the command's own, and no other field matters (R83, R124). -/
theorem decode_bsFits {r : Request} (h : r.op = 0x12) : decode r = .ok (.bsFits r.o r.s) := by
  rw [decode, h]
  rfl

theorem fitsInOnePage_iff {c : Config} {off size : Nat} :
    fitsInOnePage c off size = true ↔ off + size ≤ c.pageSize := by
  rw [fitsInOnePage, decide_eq_true_iff]

/-- Settles O29: the answer is that of FitsInOnePage, which reads no page. -/
theorem bsFitsComparesExactly : Obligations.BsFitsComparesExactly := by
  unfold Obligations.BsFitsComparesExactly
  refine ⟨fun r hop => decode_bsFits hop, fun s o size hsafe => ?_⟩
  have hexec : exec (.bsFits o size) s =
      .next (answered s (okResult (if fitsInOnePage s.cfg o.toNat size.toNat then 1 else 0))) :=
    unlessFatal_of_safe hsafe _
  simp only [hexec, fitsInOnePage_iff, okResult]

end Sys2Proof.Proofs
end

section
/-! A byte sequence stored with room under the ceiling: the command as a store of the whole list, and the bytes it leaves. -/

namespace Sys2Proof.Proofs

open Sys2Proof.Machine Sys2Proof.Statements

/-- A `B` of `L` bytes is stored whole (R83, R154). -/
theorem exec_storeSeq {s : State} (hsafe : s.fatal = none) (a : Word) {l : Word} {b : List Byte}
    (hlen : b.length = l.toNat) :
    exec (.storeSeq a l b) s = storeThrough s (storeSequence s.cfg s.pages a b) okDone := by
  rw [exec, execStoreSeq, unlessFatal_of_safe hsafe, List.take_of_length_le hlen.le]

/-- With room a sequence store completes, and memory reads as after its byte stores: the occupancy update that follows them
changes no byte (R153, R154). -/
theorem storeSequence_of_room {s : State} {a : Word} {b : List Byte} (hlen : b.length ≤ 2 ^ 64)
    (hroom : RoomFor s (addrRange a b.length)) :
    ∃ m, storeSequence s.cfg s.pages a b = .ok m ∧
      ∀ x, memView s.cfg m x =
        if (x - a).toNat < b.length then b[(x - a).toNat]? else unstored s (addrRange a b.length) x := by
  obtain ⟨m₁, hbytes⟩ := storeBytes_of_room ((roomFor_iff s _).1 hroom)
  obtain ⟨m, hseq, hview, -⟩ := storeSequence_ok hbytes
  exact ⟨m, hseq, fun x => (hview x).trans (memView_storeBytes hlen hbytes x)⟩

/-- Settles O19: with room the sequence store completes, and the command answers OK with the memory it leaves. -/
theorem storeSeqWritesExactlyItsBytes : Obligations.StoreSeqWritesExactlyItsBytes := by
  unfold Obligations.StoreSeqWritesExactlyItsBytes
  intro s a l b hsafe hlen hroom
  obtain ⟨m, hseq, hview⟩ := storeSequence_of_room (hlen ▸ l.isLt.le) (hlen ▸ hroom)
  refine ⟨m, ?_, hlen ▸ hview⟩
  rw [exec_storeSeq hsafe a hlen, hseq]
  rfl

end Sys2Proof.Proofs
end

section
/-! The causes of fatal faults: the record a command or a pass of a run latches, read off from what each can do. -/

namespace Sys2Proof.Proofs

open Sys2Proof.Machine

/-- Every effect but a fatal fault leaves the fault record as it was. -/
theorem faultKind_of_effect {i : Instr} {s t : State} {f : FatalRecord} (hsafe : s.fatal = none)
    (h : Effect i s (.next t)) (ht : t.fatal = some f) :
    (IsPageFault f ∧ mayPageFault i = true) ∨ (IsCapacityFault f ∧ mayExhaustCapacity i = true) := by
  cases h with
  | faults g hg =>
    obtain rfl : g = f := by simpa using ht
    exact hg
  | answers r => simp [hsafe] at ht
  | stores m r hi hm hf => simp [hsafe] at ht
  | setsPc d hi => simp [hsafe] at ht
  | steps m pc ks hi hm => simp [hsafe] at ht
  | begins x hi => simp [hsafe] at ht
  | idles x run hi hrun => simp [hsafe] at ht

/-- A pass of a run takes a fatal fault of its fetch or of its kernel, for every kernel (R215, R223). -/
theorem faultKind_of_continueRun {K : Kernel} {run : Run} {s t : State} {f : FatalRecord} (hsafe : s.fatal = none)
    (h : continueRun K run s = .next t) (ht : t.fatal = some f) : IsPageFault f ∨ IsCapacityFault f := by
  obtain hend | ⟨m, pc, ks, -, hcycle⟩ | ⟨k, m, -, hkernel⟩ | ⟨g, hg, hfault⟩ := continueRun_cases hsafe K run
  · cases h.symm.trans hend
    simp [hsafe] at ht
  · cases h.symm.trans hcycle
    simp [hsafe] at ht
  · cases h.symm.trans hkernel
    simp [hsafe] at ht
  · cases h.symm.trans hfault
    obtain rfl : g = f := by simpa using ht
    exact hg

/-- Settles O44: a command takes a fault of its rows in the table of R240, and a step of a run is a pass of that run. -/
theorem causesByCommand : Obligations.CausesByCommand := by
  unfold Obligations.CausesByCommand
  refine ⟨fun i s t f hsafe hexec ht => ?_, fun s t f hsafe hrun hstep ht => ?_⟩
  · exact (faultKind_of_effect hsafe (hexec ▸ exec_effect hsafe i) ht).imp and_assoc.1 and_assoc.1
  · obtain ⟨run, hrun⟩ := Option.isSome_iff_exists.1 hrun
    exact faultKind_of_continueRun hsafe (step_of_run hrun ▸ hstep) ht

end Sys2Proof.Proofs
end

section
/-! Loading an image: its fields and its program headers in the words of the statements, and from them what a load writes
and where it faults. -/

namespace Sys2Proof.Proofs

open Sys2Proof.Machine Sys2Proof.Statements

/-! ## Fields of an image -/

/-- A field that reaches past the end of the list reads 0 there, so no length is asked for. -/
theorem leValue_take (bs : List Byte) (n : Nat) : leValue (bs.take n) = byteSum (fun i => bs.getD i 0) n := by
  induction n with
  | zero => rfl
  | succ n ih =>
    rw [List.take_add_one, leValue_append, ih, byteSum]
    by_cases hn : n < bs.length
    · simp [hn, hn.le, leValue, Nat.pow_mul]
    · simp [hn, leValue]

theorem elfField_eq_imageField (img : List Byte) (o n : Nat) : elfField img o n = imageField img o n := by
  simp [elfField, imageField, leValue_take]

theorem byteSum_lt (f : Nat → Byte) (n : Nat) : byteSum f n < 2 ^ (8 * n) := by
  induction n with
  | zero => simp [byteSum]
  | succ n ih =>
    have hbyte : (f n).toNat * 2 ^ (8 * n) ≤ 255 * 2 ^ (8 * n) := Nat.mul_le_mul_right _ (by have := (f n).isLt; omega)
    rw [byteSum, Nat.mul_succ, Nat.pow_add]
    omega

theorem imageField_lt (img : List Byte) (o n : Nat) : imageField img o n < 2 ^ (8 * n) := byteSum_lt _ n

/-! ## Program headers, by index -/

/-- Program header `k` of an image, as the loader reads it (R96). -/
def imageHeader (img : List Byte) (k : Nat) : ProgramHeader := programHeaderAt img (headerOffset img k)

theorem imageHeader_vaddr (img : List Byte) (k : Nat) : BitVec.ofNat 64 (imageHeader img k).vaddr = segmentVaddr img k := by
  simp only [imageHeader, programHeaderAt, elfField_eq_imageField, segmentVaddr]

theorem imageHeader_offset (img : List Byte) (k : Nat) : (imageHeader img k).offset = segmentOffset img k := by
  simp only [imageHeader, programHeaderAt, elfField_eq_imageField, segmentOffset]

theorem imageHeader_filesz (img : List Byte) (k : Nat) : (imageHeader img k).filesz = segmentFilesz img k := by
  simp only [imageHeader, programHeaderAt, elfField_eq_imageField, segmentFilesz]

theorem imageHeader_selected (img : List Byte) (k : Nat) : (imageHeader img k).selected = segmentSelected img k := by
  simp only [ProgramHeader.selected, imageHeader, programHeaderAt, elfField_eq_imageField, segmentSelected]

theorem programHeaders_eq_map (img : List Byte) :
    programHeaders img = (List.range (imageField img 0x38 2)).map (imageHeader img) := by
  simp only [programHeaders, programHeadersFrom_eq, elfPhnum, elfPhoff, elfField_eq_imageField]
  rfl

theorem filesz_le_of_mem_programHeaders {img : List Byte} {h : ProgramHeader} (hmem : h ∈ programHeaders img) :
    h.filesz ≤ 2 ^ 64 := by
  rw [programHeaders_eq_map] at hmem
  obtain ⟨k, -, rfl⟩ := List.mem_map.1 hmem
  have hlt := imageField_lt img (headerOffset img k + 0x20) 8
  rw [imageHeader_filesz, segmentFilesz]
  omega

/-! ## Segments inside the image -/

/-- The file bytes of the selected segments among these lie inside the image, as the check of R190 has it. -/
def SegmentsInside (img : List Byte) (ks : List Nat) : Prop :=
  ∀ k ∈ ks, segmentSelected img k = true → segmentOffset img k + segmentFilesz img k ≤ img.length

theorem segmentOutOfRange_imageHeader (img : List Byte) (k : Nat) :
    segmentOutOfRange img (imageHeader img k) =
      (segmentSelected img k && decide (img.length < segmentOffset img k + segmentFilesz img k)) := by
  rw [segmentOutOfRange, imageHeader_selected, imageHeader_offset, imageHeader_filesz]

theorem not_any_segmentOutOfRange_of_checkImage {img : List Byte} (hcheck : checkImage img = none) :
    ¬ (programHeaders img).any (segmentOutOfRange img) = true := by
  simp only [checkImage, ite_eq_iff, reduceCtorEq, and_false, false_or, and_true] at hcheck
  obtain ⟨-, -, -, -, -, -, hrange⟩ := hcheck
  exact hrange

theorem segmentsInside_of_checkImage {img : List Byte} (hcheck : checkImage img = none) :
    SegmentsInside img (List.range (imageField img 0x38 2)) := by
  intro k hk hsel
  by_contra hout
  refine not_any_segmentOutOfRange_of_checkImage hcheck (List.any_eq_true.2 ⟨imageHeader img k, ?_, ?_⟩)
  · rw [programHeaders_eq_map]
    exact List.mem_map_of_mem hk
  · rw [segmentOutOfRange_imageHeader, hsel, Bool.true_and]
    exact decide_eq_true (Nat.not_le.1 hout)

theorem segmentBytes_imageHeader_length {img : List Byte} {k : Nat}
    (hk : segmentOffset img k + segmentFilesz img k ≤ img.length) :
    (segmentBytes img (imageHeader img k)).length = segmentFilesz img k := by
  simp only [segmentBytes, imageHeader_offset, imageHeader_filesz, List.length_take, List.length_drop]
  omega

theorem addresses_imageHeader {img : List Byte} {k : Nat}
    (hk : segmentSelected img k = true → segmentOffset img k + segmentFilesz img k ≤ img.length) :
    (imageHeader img k).addresses img =
      if segmentSelected img k then addrRange (segmentVaddr img k) (segmentFilesz img k) else [] := by
  rw [ProgramHeader.addresses, imageHeader_selected, imageHeader_vaddr]
  split
  · rename_i hsel
    rw [segmentBytes_imageHeader_length (hk hsel)]
  · rfl

/-- Inside the image the byte a segment puts at an address is the image's own (R192). -/
theorem byteFor_imageHeader {img : List Byte} {k : Nat}
    (hk : segmentSelected img k = true → segmentOffset img k + segmentFilesz img k ≤ img.length) (x : Word) :
    (imageHeader img k).byteFor img x =
      if segmentSelected img k then
        if (x - segmentVaddr img k).toNat < segmentFilesz img k then
          some (img.getD (segmentOffset img k + (x - segmentVaddr img k).toNat) 0)
        else none
      else none := by
  rw [ProgramHeader.byteFor, imageHeader_selected, imageHeader_vaddr]
  split
  · rename_i hsel
    rw [segmentBytes, imageHeader_offset, imageHeader_filesz, List.getElem?_take]
    split
    · have hlt : segmentOffset img k + (x - segmentVaddr img k).toNat < img.length := by have := hk hsel; omega
      rw [List.getElem?_drop, List.getD_eq_getElem _ _ hlt, List.getElem?_eq_getElem hlt]
    · rfl
  · rfl

theorem flatMap_addresses_imageHeader {img : List Byte} {ks : List Nat} (hks : SegmentsInside img ks) :
    (ks.map (imageHeader img)).flatMap (·.addresses img) =
      (ks.filter (segmentSelected img)).flatMap fun k => addrRange (segmentVaddr img k) (segmentFilesz img k) := by
  induction ks with
  | nil => rfl
  | cons k t ih =>
    obtain ⟨hk, ht⟩ := List.forall_mem_cons.1 hks
    rw [List.map_cons, List.flatMap_cons, ih ht, addresses_imageHeader hk, List.filter_cons]
    split
    · rw [List.flatMap_cons]
    · rw [List.nil_append]

theorem segmentsByte_imageHeader {img : List Byte} {ks : List Nat} (hks : SegmentsInside img ks) (x : Word) :
    segmentsByte img x (ks.map (imageHeader img)) = loadedByte img x (ks.filter (segmentSelected img)) := by
  induction ks with
  | nil => rfl
  | cons k t ih =>
    obtain ⟨hk, ht⟩ := List.forall_mem_cons.1 hks
    rw [List.map_cons, segmentsByte, ih ht, byteFor_imageHeader hk]
    cases hsel : segmentSelected img k with
    | true =>
      rw [List.filter_cons_of_pos hsel, if_pos rfl]
      rfl
    | false =>
      rw [List.filter_cons_of_neg (by simp [hsel]), if_neg Bool.false_ne_true]
      cases loadedByte img x (t.filter (segmentSelected img)) <;> rfl

/-- The addresses the loader writes to, in order, are the statements' (R192, R194). -/
theorem flatMap_addresses_programHeaders {img : List Byte} (hcheck : checkImage img = none) :
    (programHeaders img).flatMap (·.addresses img) = segmentAddresses img := by
  rw [programHeaders_eq_map]
  exact flatMap_addresses_imageHeader (segmentsInside_of_checkImage hcheck)

theorem segmentsByte_programHeaders {img : List Byte} (hcheck : checkImage img = none) (x : Word) :
    segmentsByte img x (programHeaders img) = loadedByte img x (selectedSegments img) := by
  rw [programHeaders_eq_map]
  exact segmentsByte_imageHeader (segmentsInside_of_checkImage hcheck) x

/-! ## The command -/

/-- An image that passes its checks is written, and its entry point is the answer (R180, R195). -/
theorem exec_loadElf_image {s : State} {img : List Byte} (hsafe : s.fatal = none) (hcheck : checkImage img = none) :
    exec (.loadElf (.image img)) s =
      storeThrough s (loadSegments s.cfg img s.pages (programHeaders img))
        (okResult (BitVec.ofNat 64 (imageField img 0x18 8))) := by
  rw [exec, execLoadElf, unlessFatal_of_safe hsafe, loadImage, hcheck, elfEntry, elfField_eq_imageField]

/-- Settles O40: with room the segments' stores complete, and memory reads as after the last of them. -/
theorem loadElfWritesItsSegments : Obligations.LoadElfWritesItsSegments := by
  unfold Obligations.LoadElfWritesItsSegments
  intro s img hsafe hcheck hroom
  rw [← flatMap_addresses_programHeaders hcheck] at hroom ⊢
  obtain ⟨m, hload, hview⟩ :=
    loadSegments_of_room (fun _ => filesz_le_of_mem_programHeaders) ((roomFor_iff s _).1 hroom)
  refine ⟨m, ?_, fun x => ?_⟩
  · rw [exec_loadElf_image hsafe hcheck, hload]
    rfl
  · rw [hview, segmentsByte_programHeaders hcheck]
    rfl

/-- Settles O41: the segments' stores fault at that address, and the command takes their fault. -/
theorem loadElfFaultsAtFirstByteWithNoRoom : Obligations.LoadElfFaultsAtFirstByteWithNoRoom := by
  unfold Obligations.LoadElfFaultsAtFirstByteWithNoRoom
  intro s img j x hinv hsafe hcheck hx hroom hnoRoom
  obtain ⟨hwf, hceiling, -⟩ := hinv
  rw [← flatMap_addresses_programHeaders hcheck] at hx hroom hnoRoom
  have hfault := loadSegments_no_room hwf hceiling hx hroom hnoRoom fun _ => filesz_le_of_mem_programHeaders
  rw [exec_loadElf_image hsafe hcheck, hfault]
  rfl

end Sys2Proof.Proofs
end

section
/-! The run loop: one cycle from its fetched word, a pass of a Simple run case by case, and completed cycles as passes of a run
that goes on until the sentinel. -/

namespace Sys2Proof.Proofs

open Sys2Proof.Machine Sys2Proof.Statements

/-! ## One cycle -/

/-- The fetched word is the little-endian sum of the 4 bytes at `pc` (R212, R57). -/
theorem fetchWord_of_bytes {s : State} {f : Nat → Byte} (h : ∀ i < 4, s.byteAt (addrAdd s.pc i) = some (f i)) :
    fetchWord s = .ok (BitVec.ofNat 32 (byteSum f 4)) := by
  have hload : loadWidth s.cfg s.pages .four s.pc = .ok (byteSum f 4) := loadWidth_of_view h
  rw [fetchWord, hload]

/-- How the cycle of a fetched word ends, beside what the statements' `afterCycle` makes of it (R215). -/
theorem cycle_afterCycle_cases (K : Kernel) {s : State} {w : BitVec 32} (hfetch : fetchWord s = .ok w) :
    (∃ t, cycle K s = .completed t ∧ ∀ done kfault, afterCycle K s w done kfault = done t) ∨
    (∃ k t, cycle K s = .kernelFault k t ∧ ∀ done kfault, afterCycle K s w done kfault = kfault k t) ∨
    (∃ f, cycle K s = .fatal f ∧ ∀ done kfault, afterCycle K s w done kfault = s.raiseFatal f) := by
  have hview : s.byteAt = memView s.cfg s.pages := rfl
  simp only [cycle, hfetch, executeWord, afterCycle, hview]
  obtain f | ⟨⟨pc, ks⟩ | k, m⟩ :=
    runKernelProg s.cfg s.pages (K.execute (K.decode w) s.pc s.kstate (memView s.cfg s.pages))
  · exact .inr (.inr ⟨f, rfl, fun _ _ => rfl⟩)
  · exact .inl ⟨s.writeBack m pc ks, rfl, fun _ _ => rfl⟩
  · exact .inr (.inl ⟨k, s.withPages m, rfl, fun _ _ => rfl⟩)

theorem writeBack_of_completed {K : Kernel} {s t : State} (h : cycle K s = .completed t) :
    ∃ m pc ks, t = s.writeBack m pc ks := by
  obtain ⟨m, pc, ks, -, hdone⟩ | ⟨k, m, -, hkernel⟩ | ⟨f, hfatal⟩ := cycle_cases K s
  · exact ⟨m, pc, ks, CycleEnd.completed.inj (h.symm.trans hdone)⟩
  · cases h.symm.trans hkernel
  · cases h.symm.trans hfatal

/-! ## RUN_STEP -/

/-- Settles O31: the sentinel is tested before the fetch. -/
theorem runStepAtSentinelAnswersHalted : Obligations.RunStepAtSentinelAnswersHalted := by
  unfold Obligations.RunStepAtSentinelAnswersHalted
  intro s hsafe hpc
  have hexec : exec .runStep s = runStepWith Config.kernel s := unlessFatal_of_safe hsafe _
  rw [hexec, runStepWith, if_pos hpc]
  rfl

/-! ## A pass of a Simple run -/

theorem continueRun_of_halted {s : State} (hsafe : s.fatal = none) (hpc : s.pc = 0) (K : Kernel) (run : Run) :
    continueRun K run s = .next (s.endRun run okDone) := by
  rw [continueRun, unlessFatal_of_safe hsafe, if_pos hpc]

theorem continueRun_of_completed {K : Kernel} {s t : State} (hsafe : s.fatal = none) (hpc : s.pc ≠ 0)
    (hcycle : cycle K s = .completed t) (run : Run) : continueRun K run s = .next t := by
  rw [continueRun, unlessFatal_of_safe hsafe, if_neg hpc, hcycle]

/-- A pass whose fetch succeeds ends as the kernel's execution of the word does (R215, R218, R223, R224). -/
theorem continueRun_of_fetch {K : Kernel} {s : State} {w : BitVec 32} (hsafe : s.fatal = none) (hpc : s.pc ≠ 0)
    (hfetch : fetchWord s = .ok w) (run : Run) :
    continueRun K run s = .next (afterCycle K s w id fun k t => t.endRun run (kernelFaultResponse k)) := by
  rw [continueRun, unlessFatal_of_safe hsafe, if_neg hpc]
  obtain ⟨t, hcycle, hafter⟩ | ⟨k, t, hcycle, hafter⟩ | ⟨f, hcycle, hafter⟩ := cycle_afterCycle_cases K hfetch
  · rw [hcycle, hafter, id]
  · rw [hcycle, hafter]
  · rw [hcycle, hafter]

/-- Settles O36: the step is a pass of the run, which ends at the sentinel or performs the cycle of the word at `pc`. -/
theorem simpleRunPass : Obligations.SimpleRunPass := by
  unfold Obligations.SimpleRunPass
  refine fun s run hsafe hrun => ⟨fun hpc => ?_, fun f hpc hbytes => ?_⟩
  · rw [step_of_run hrun, continueRun_of_halted hsafe hpc]
    rfl
  · rw [step_of_run hrun, continueRun_of_fetch hsafe hpc (fetchWord_of_bytes hbytes)]
    rfl

/-! ## A run of completed cycles -/

theorem cyclesComplete_succ {K : Kernel} {n : Nat} {s t : State} (h : cyclesComplete K (n + 1) s = some t) :
    s.pc ≠ 0 ∧ ∃ u, cycle K s = .completed u ∧ cyclesComplete K n u = some t := by
  rw [cyclesComplete] at h
  split at h
  case isTrue => cases h
  case isFalse hpc =>
    refine ⟨hpc, ?_⟩
    cases hcycle : cycle K s with
    | completed u => exact ⟨u, rfl, by simpa [hcycle] using h⟩
    | kernelFault k u => simp [hcycle] at h
    | fatal f => simp [hcycle] at h

/-- Completed cycles add no report, and each advances the count by one (R215). -/
theorem cyclesComplete_frame {K : Kernel} {n : Nat} {s t : State} (h : cyclesComplete K n s = some t) :
    t.reports = s.reports ∧ t.icount = s.icount + BitVec.ofNat 64 n := by
  induction n generalizing s with
  | zero =>
    cases h
    exact ⟨rfl, (BitVec.add_zero _).symm⟩
  | succ n ih =>
    obtain ⟨-, u, hcycle, hrest⟩ := cyclesComplete_succ h
    obtain ⟨m, pc, ks, rfl⟩ := writeBack_of_completed hcycle
    obtain ⟨hreports, hcount⟩ := ih hrest
    refine ⟨hreports, ?_⟩
    rw [hcount, State.writeBack_icount, Nat.add_comm n 1, BitVec.ofNat_add, BitVec.add_assoc]
    rfl

/-- Whatever takes one pass of the run after another (`passes`: passes of the loop or steps of the block) gets through the
completed cycles, and with one pass more to the end of the run at the sentinel (R218). -/
theorem passes_of_cyclesComplete {K : Kernel} {run : Run} {passes : Nat → State → Host.Outcome State Fault Refusal}
    (hpass : ∀ k s u, s.run = some run → continueRun K run s = .next u → passes (k + 1) s = passes k u)
    {n : Nat} {s t : State} (hsafe : s.fatal = none) (hrun : s.run = some run)
    (h : cyclesComplete K n s = some t) (hpc : t.pc = 0) :
    passes (n + 1) s = passes 0 (t.endRun run okDone) := by
  induction n generalizing s with
  | zero =>
    cases h
    exact hpass 0 _ _ hrun (continueRun_of_halted hsafe hpc K run)
  | succ n ih =>
    obtain ⟨hne, u, hcycle, hrest⟩ := cyclesComplete_succ h
    rw [hpass (n + 1) s u hrun (continueRun_of_completed hsafe hne hcycle run)]
    obtain ⟨m, pc, ks, rfl⟩ := writeBack_of_completed hcycle
    exact ih hsafe hrun hrest

theorem runPasses_succ {K : Kernel} {run : Run} (k : Nat) (s u : State) (hrun : s.run = some run)
    (hpass : continueRun K run s = .next u) : runPasses K (k + 1) s = runPasses K k u := by
  simp only [runPasses, hrun, hpass]

theorem coreRun_succ_of_pass {run : Run} (k : Nat) (s u : State) (hrun : s.run = some run)
    (hpass : continueRun Config.kernel run s = .next u) : core.run (k + 1) s = core.run k u := by
  have hstep : core.step s = .next u := (step_of_run hrun).trans hpass
  simp only [Host.Core.run, hstep]

/-- The end of the run in the words of the statement: the reports are those before the cycles and the run's own (R225). -/
theorem endRun_of_cyclesComplete {K : Kernel} {n : Nat} {s t : State} (h : cyclesComplete K n s = some t) (run : Run) :
    t.endRun run okDone =
      { t with
        run := none
        reports := s.reports ++ run.reports (s.icount + BitVec.ofNat 64 n)
        response := some { st := .ok } } := by
  obtain ⟨hreports, hcount⟩ := cyclesComplete_frame h
  rw [State.endRun, hreports, hcount]
  rfl

/-- Settles O37, by induction on the number of cycles: passes of the loop and steps of the block get through them alike. -/
theorem simpleRunHaltsWithItsCount : Obligations.SimpleRunHaltsWithItsCount := by
  unfold Obligations.SimpleRunHaltsWithItsCount
  refine ⟨fun K n s t run hsafe hrun hcycles hpc => ⟨(cyclesComplete_frame hcycles).2, ?_⟩,
    fun n s t run hsafe hrun hcycles hpc => ?_⟩
  · rw [passes_of_cyclesComplete runPasses_succ hsafe hrun hcycles hpc, endRun_of_cyclesComplete hcycles]
    rfl
  · refine (passes_of_cyclesComplete coreRun_succ_of_pass hsafe hrun hcycles hpc).trans ?_
    rw [endRun_of_cyclesComplete hcycles]
    rfl

end Sys2Proof.Proofs
end

section
/-! Loads that do not start: a loader error, and an open that the host has not answered. -/

namespace Sys2Proof.Proofs

open Sys2Proof.Machine

/-- A loader error of the image is answered before any segment is written (R183, R196). -/
theorem exec_loadElf_image_of_loaderError {s : State} {img : List Byte} {e : LoaderError} (hsafe : s.fatal = none)
    (hcheck : checkImage img = some e) :
    exec (.loadElf (.image img)) s = .next (s.answer (loaderErrorResponse e)) := by
  rw [exec, execLoadElf, unlessFatal_of_safe hsafe, loadImage, hcheck]

theorem exec_loadElf_cannotOpen {s : State} (hsafe : s.fatal = none) :
    exec (.loadElf .cannotOpen) s = .next (s.answer (loaderErrorResponse .openFailed)) := by
  rw [exec, execLoadElf, unlessFatal_of_safe hsafe]

theorem exec_loadElf_pending {s : State} (hsafe : s.fatal = none) :
    exec (.loadElf .pending) s = .fault .hostFilePending := by
  rw [exec, execLoadElf, unlessFatal_of_safe hsafe]

/-- Settles O38: the check and the refused open only answer, and the unanswered open is a fault of the step. -/
theorem loaderErrorChangesNothing : Obligations.LoaderErrorChangesNothing := by
  unfold Obligations.LoaderErrorChangesNothing
  intro s hsafe
  refine ⟨fun img e hcheck => ?_, ?_, ?_⟩
  · exact exec_loadElf_image_of_loaderError hsafe hcheck
  · exact exec_loadElf_cannotOpen hsafe
  · exact exec_loadElf_pending hsafe

end Sys2Proof.Proofs
end

section
/-! The decoder and the encoder: each code with the fields its format lists, and the codes outside the table. -/

namespace Sys2Proof.Proofs

open Sys2Proof.Machine Sys2Proof.Statements

/-! ## The table of codes -/

@[simp] theorem listedFields_op (r : Request) : (listedFields r).op = r.op := by
  simp only [listedFields, apply_ite Request.op, ite_self]

theorem mem_tableCodes_of_toNat {op : BitVec 8} {n : Nat} (h : op.toNat = n) (hn : BitVec.ofNat 8 n ∈ tableCodes) :
    op ∈ tableCodes := by
  rwa [← h, BitVec.ofNat_toNat, BitVec.setWidth_eq] at hn

/-- A code outside the table is rejected by name (R92): the number of every other arm is that of a code in the table. -/
theorem decode_of_not_mem_tableCodes {r : Request} (hop : r.op ∉ tableCodes) :
    decode r = .error (.illegalCommand r.op) := by
  unfold decode
  split
  case h_26 => rfl
  all_goals
    rename_i hcode
    exact absurd (mem_tableCodes_of_toNat hcode (by decide)) hop

/-- A code of the table is decoded with the fields its format lists, a STORE_SEQ where `B` has `L` bytes (R83 to
R85). -/
theorem decode_of_mem_tableCodes {r : Request} (hop : r.op ∈ tableCodes) :
    (r.op = 0x0A ∧ listedFields r = encode (.storeSeq r.a r.l r.b) ∧ decode r = decodeStoreSeq r) ∨
    (∃ i, listedFields r = encode i ∧ decode r = .ok i ∧ ∀ a l b, i ≠ .storeSeq a l b) := by
  obtain ⟨op, a, d, l, b, p, o, z, f, v, m, x, i⟩ := r
  by_cases hseq : op = 0x0A
  · subst hseq
    exact .inl ⟨rfl, rfl, rfl⟩
  · simp only [tableCodes, List.mem_cons, hseq, List.not_mem_nil, or_false, false_or] at hop
    refine .inr ?_
    rcases hop with rfl | rfl | rfl | rfl | rfl | rfl | rfl | rfl | rfl | rfl | rfl | rfl | rfl | rfl | rfl | rfl |
      rfl | rfl | rfl | rfl | rfl | rfl | rfl | rfl <;> exact ⟨_, rfl, rfl, by simp⟩

/-! ## Decode after encode -/

theorem encode_op_mem_tableCodes (i : Instr) : (encode i).op ∈ tableCodes := by
  cases i <;> simp [encode, tableCodes]

/-- A STORE_SEQ is decoded back where its `B` has `L` bytes (R83, log 11), every other command at every operand. -/
theorem decode_encode {i : Instr} (hlen : ∀ a l b, i = .storeSeq a l b → b.length = l.toNat) :
    decode (encode i) = .ok i := by
  cases i with
  | storeSeq a l b => exact if_pos (hlen a l b rfl)
  | _ => rfl

theorem length_of_wf {c : Config} {i : Instr} (hwf : i.wf c = true) (a l : Word) (b : List Byte)
    (hi : i = .storeSeq a l b) : b.length = l.toNat := by
  subst hi
  exact of_decide_eq_true hwf

theorem decodeStoreSeq_eq_ok {r : Request} {i : Instr} :
    decodeStoreSeq r = .ok i ↔ r.b.length = r.l.toNat ∧ i = .storeSeq r.a r.l r.b := by
  rw [decodeStoreSeq]
  split <;> simp_all [eq_comm]

/-- A request with the fields of a command's own request is decoded as that command is: a STORE_SEQ is its own fields,
and two commands of one request are one command. -/
theorem decode_of_listedFields {r : Request} {i : Instr} (hfields : listedFields r = encode i)
    (hlen : ∀ a l b, i = .storeSeq a l b → b.length = l.toNat) : decode r = .ok i := by
  have hop : r.op ∈ tableCodes := by
    rw [← listedFields_op, hfields]
    exact encode_op_mem_tableCodes i
  have hdec := decode_encode hlen
  rw [← hfields] at hdec
  obtain ⟨-, hseq, hr⟩ | ⟨j, hj, hr, hne⟩ := decode_of_mem_tableCodes hop
  · rw [hr]
    rw [hseq] at hdec
    exact hdec
  · rw [hj, decode_encode fun a l b h => absurd h (hne a l b)] at hdec
    rw [hr, hdec]

theorem listedFields_of_decode {r : Request} {i : Instr} (h : decode r = .ok i) :
    listedFields r = encode i ∧ ∀ a l b, i = .storeSeq a l b → b.length = l.toNat := by
  by_cases hop : r.op ∈ tableCodes
  · obtain ⟨-, hseq, hr⟩ | ⟨j, hj, hr, hne⟩ := decode_of_mem_tableCodes hop
    · obtain ⟨hlen, rfl⟩ := decodeStoreSeq_eq_ok.1 (hr.symm.trans h)
      refine ⟨hseq, ?_⟩
      rintro a l b ⟨⟩
      exact hlen
    · obtain rfl : j = i := Except.ok.inj (hr.symm.trans h)
      exact ⟨hj, fun a l b hi => absurd hi (hne a l b)⟩
  · cases (decode_of_not_mem_tableCodes hop).symm.trans h

/-- Settles O1: a command is decoded back from its own request, and a request is decoded by its listed fields, which are
a command's own request exactly where the code is in the table. -/
theorem decodeInvertsEncode : Obligations.DecodeInvertsEncode := by
  unfold Obligations.DecodeInvertsEncode
  refine ⟨fun c i hwf => decode_encode (length_of_wf hwf), fun r i => ⟨listedFields_of_decode, ?_⟩⟩
  rintro ⟨hfields, hlen⟩
  exact decode_of_listedFields hfields hlen

/-! ## Illegal codes -/

/-- The one request with a code of the table that is no command is a STORE_SEQ of another length (log 11). -/
theorem decode_ne_illegalCommand {r : Request} (hop : r.op ∈ tableCodes) (op : BitVec 8) :
    decode r ≠ .error (.illegalCommand op) := by
  obtain ⟨-, -, hr⟩ | ⟨i, -, hr, -⟩ := decode_of_mem_tableCodes hop
  · rw [hr, decodeStoreSeq]
    split <;> simp
  · simp [hr]

/-- Settles O3: outside the table the code is rejected by name, and inside no request is rejected so. -/
theorem otherCodesAreIllegal : Obligations.OtherCodesAreIllegal := by
  unfold Obligations.OtherCodesAreIllegal
  refine fun r => ⟨decode_of_not_mem_tableCodes, fun op h => ?_⟩
  have hop : r.op ∉ tableCodes := fun hop => decode_ne_illegalCommand hop op h
  rw [decode_of_not_mem_tableCodes hop] at h
  cases h
  exact ⟨hop, rfl⟩

/-- Settles O5: the step rejects the request by name, and a rejected code only answers. -/
theorem illegalCommandAnswersAndChangesNothing : Obligations.IllegalCommandAnswersAndChangesNothing := by
  unfold Obligations.IllegalCommandAnswersAndChangesNothing
  intro s r rest hsafe hrun hreq hop
  rw [step_of_request hrun hreq, runRequest, decode_of_not_mem_tableCodes hop]
  exact unlessFatal_of_safe (s := { s with requests := rest }) hsafe _

/-! ## Codes, by evaluation -/

/-- Settles O2, by evaluation of the decoder. -/
theorem sampleWordsDecode : Obligations.SampleWordsDecode := by
  unfold Obligations.SampleWordsDecode
  exact ⟨rfl, rfl, rfl, rfl, rfl, rfl, rfl, rfl, rfl, rfl⟩

/-- Settles O53: the codes by evaluation, and the four codes of a run mode one by one. -/
theorem responseCodes : Obligations.ResponseCodes := by
  unfold Obligations.ResponseCodes
  exact ⟨rfl, rfl, rfl, rfl, by decide⟩

end Sys2Proof.Proofs
end

section
/-! The fatal state: its entry is one for every command, and nothing but the port changes in it. -/

namespace Sys2Proof.Proofs

open Sys2Proof.Machine Sys2Proof.Statements

/-! ## Entry -/

/-- Every effect but a fatal fault leaves the fault record as it was. -/
theorem eq_raiseFatal_of_effect {i : Instr} {s t : State} {f : FatalRecord} (hsafe : s.fatal = none)
    (h : Effect i s (.next t)) (ht : t.fatal = some f) : t = s.raiseFatal f := by
  cases h with
  | faults g hg =>
    obtain rfl : g = f := by simpa using ht
    rfl
  | answers r => simp [hsafe] at ht
  | stores m r hi hm hf => simp [hsafe] at ht
  | setsPc d hi => simp [hsafe] at ht
  | steps m pc ks hi hm => simp [hsafe] at ht
  | begins x hi => simp [hsafe] at ht
  | idles x run hi hrun => simp [hsafe] at ht

/-- Settles O43: the one effect that latches a record is fatal entry. -/
theorem fatalEntryIsTheSameForEveryCommand : Obligations.FatalEntryIsTheSameForEveryCommand := by
  unfold Obligations.FatalEntryIsTheSameForEveryCommand
  exact fun i s t f hsafe hexec ht => eq_raiseFatal_of_effect hsafe (hexec ▸ exec_effect hsafe i) ht

/-! ## Inside -/

theorem rejectRequest_of_fatal {s : State} {f : FatalRecord} (h : s.fatal = some f) (e : DecodeError) :
    rejectRequest e s = .next (s.answer (fatalResponse f)) := by
  cases e with
  | illegalCommand op => exact unlessFatal_of_fatal h _
  | sequenceLength => exact unlessFatal_of_fatal h _

/-- Every request, a command or not, is answered alike (R245, R252). -/
theorem runRequest_of_fatal {s : State} {f : FatalRecord} (h : s.fatal = some f) (r : Request) :
    runRequest r s = .next (s.answer (fatalResponse f)) := by
  rw [runRequest]
  cases decode r with
  | ok i => exact exec_of_fatal h i
  | error e => exact rejectRequest_of_fatal h e

/-- Settles O6: a command by its own check of `fatal`, a step by that of its request. -/
theorem fatalAnswersEveryCommand : Obligations.FatalAnswersEveryCommand := by
  unfold Obligations.FatalAnswersEveryCommand
  refine fun s f hfatal => ⟨exec_of_fatal hfatal, fun r rest hrun hreq => ?_⟩
  rw [step_of_request hrun hreq]
  exact runRequest_of_fatal (s := { s with requests := rest }) hfatal r

/-- Settles O45: with a run in progress or a request on the port the step answers FATAL, with neither it is idle. -/
theorem fatalStateIsNeverLeft : Obligations.FatalStateIsNeverLeft := by
  unfold Obligations.FatalStateIsNeverLeft
  intro s t f hfatal hstep
  obtain ⟨run, -, hpass⟩ | ⟨-, -, hidle⟩ | ⟨r, rest, hrun, hreq, -⟩ := step_cases s
  · rw [hpass, continueRun_of_fatal hfatal] at hstep
    cases hstep
    rfl
  · rw [hidle] at hstep
    cases hstep
    rfl
  · have hanswer := (fatalAnswersEveryCommand s f hfatal).2 r rest hrun hreq
    cases hstep.symm.trans hanswer
    rfl

end Sys2Proof.Proofs
end

section
/-! The host's register commands, RUN_TO_COMPLETION by its mode, and construction. -/

namespace Sys2Proof.Proofs

open Sys2Proof.Machine Sys2Proof.Statements

/-- Settles O30: outside the fatal state each of the three is its one update. -/
theorem hostRegisterCommands : Obligations.HostRegisterCommands := by
  unfold Obligations.HostRegisterCommands
  intro s hsafe
  exact ⟨fun d => unlessFatal_of_safe hsafe _, unlessFatal_of_safe hsafe _, unlessFatal_of_safe hsafe _⟩

/-- A Disabled run ends as it begins, with the report of a count of 0 where it is measured (R220, R225). -/
theorem endRun_beginRun_disabled (s : State) (x : Bool) :
    (s.beginRun .disabled x).endRun { measure := if x then some s.draws else none } okDone =
      { s with
        runMode := .disabled
        icount := 0
        response := some { st := .ok }
        run := none
        reports := s.reports ++ (if x then [reportOf 0 s.draws] else [])
        draws := if x then s.draws + 1 else s.draws } := by
  cases x <;> rfl

/-- Settles O35: outside the fatal state the command is the arm of its mode code. -/
theorem runToCompletionByMode : Obligations.RunToCompletionByMode := by
  unfold Obligations.RunToCompletionByMode
  refine fun s x hsafe => ⟨unlessFatal_of_safe hsafe _, ?_, unlessFatal_of_safe hsafe _, unlessFatal_of_safe hsafe _⟩
  rw [← endRun_beginRun_disabled]
  exact unlessFatal_of_safe hsafe _

/-- Settles O50: construction writes these values. -/
theorem constructionSetsTheResetValues : Obligations.ConstructionSetsTheResetValues := by
  unfold Obligations.ConstructionSetsTheResetValues
  exact fun c ks => ⟨rfl, rfl, rfl, rfl, rfl, rfl, rfl, rfl, rfl, rfl, rfl, rfl⟩

end Sys2Proof.Proofs
end

section
/-! The page commands, and the backing-store commands that name a page: each on a committed page and on one that is
not. -/

namespace Sys2Proof.Proofs

open Sys2Proof.Machine Sys2Proof.Statements

/-! ## The page a command names -/

theorem findPage_of_not_isCommitted {m : Memory} {p : Nat} (h : isCommitted m p = false) : findPage m p = none := by
  simpa [isCommitted] using h

theorem findPage_of_freePointerOf {s : State} {p f : Nat} (h : s.freePointerOf p = some f) :
    ∃ pg, findPage s.pages p = some pg ∧ pg.freePointer = f := by
  rw [State.freePointerOf] at h
  cases hpg : findPage s.pages p with
  | none => simp [hpg] at h
  | some pg => exact ⟨pg, rfl, by simpa [hpg] using h⟩

theorem findPage_of_freePointerOf_none {s : State} {p : Nat} (h : s.freePointerOf p = none) :
    findPage s.pages p = none := by
  rw [State.freePointerOf] at h
  cases hpg : findPage s.pages p with
  | none => rfl
  | some pg => simp [hpg] at h

theorem lookupPage_read_of_uncommitted {c : Config} {m : Memory} {pid : Nat} (off : Nat)
    (h : findPage m pid = none) :
    lookupPage c m pid off .read = .error ⟨.pageFault, joinAddr c pid off, .read⟩ := by
  rw [lookupPage_read, h]
  rfl

theorem pageOperand_of_found {s : State} {p : Word} {pg : Page}
    (h : findPage s.pages (pageIdOperand s.cfg p) = some pg) : pageOperand s p = .ok pg := by
  rw [pageOperand, lookupPage_of_found h]

theorem pageOperand_of_uncommitted {s : State} {p : Word} (h : findPage s.pages (pageIdOperand s.cfg p) = none) :
    pageOperand s p = .error ⟨.pageFault, joinAddr s.cfg (pageIdOperand s.cfg p) 0, .read⟩ := by
  rw [pageOperand, lookupPage_read_of_uncommitted 0 h]

/-! ## PG_GET_FP, PG_OCCUPIED, PG_FREE -/

/-- A free or occupied size is a word of its own value (R22): PAGE_SIZE is at most `2^63`. -/
theorem toNat_ofNat_of_le_pageSize {c : Config} {n : Nat} (h : n ≤ c.pageSize) : (BitVec.ofNat 64 n).toNat = n := by
  have hsize : c.pageSize < 2 ^ 64 :=
    Nat.pow_lt_pow_right (by decide) (by simp only [Config.offsetBits]; omega)
  rw [BitVec.toNat_ofNat, Nat.mod_eq_of_lt (Nat.lt_of_le_of_lt h hsize)]

theorem decode_pgGetFp {r : Request} (h : r.op = 0x18) : decode r = .ok (.pgGetFp r.p) := by
  rw [decode, h]
  rfl

theorem decode_pgOccupied {r : Request} (h : r.op = 0x1A) : decode r = .ok (.pgOccupied r.p) := by
  rw [decode, h]
  rfl

theorem decode_pgFree {r : Request} (h : r.op = 0x1B) : decode r = .ok (.pgFree r.p) := by
  rw [decode, h]
  rfl

theorem exec_pgGetFp {s : State} (hsafe : s.fatal = none) (p : Word) :
    exec (.pgGetFp p) s = answerFrom s (pageOperand s p) fun pg => okResult (BitVec.ofNat 64 pg.freePointer) :=
  unlessFatal_of_safe hsafe _

theorem exec_pgOccupied {s : State} (hsafe : s.fatal = none) (p : Word) :
    exec (.pgOccupied p) s = answerFrom s (pageOperand s p) fun pg => okResult (BitVec.ofNat 64 pg.freePointer) :=
  unlessFatal_of_safe hsafe _

theorem exec_pgFree {s : State} (hsafe : s.fatal = none) (p : Word) :
    exec (.pgFree p) s = answerFrom s (pageOperand s p) fun pg =>
      okResult (BitVec.ofNat 64 (s.cfg.pageSize - pg.freePointer)) := unlessFatal_of_safe hsafe _

/-- Settles O25: the three commands answer from the page they name, or take the fault of its lookup. -/
theorem pageQueriesAnswerOrFault : Obligations.PageQueriesAnswerOrFault := by
  unfold Obligations.PageQueriesAnswerOrFault
  refine ⟨fun r => ⟨decode_pgGetFp, decode_pgOccupied, decode_pgFree⟩, fun s p hsafe =>
    ⟨fun f hf => ?_, fun hnone => ?_⟩⟩
  · obtain ⟨pg, hpg, rfl⟩ := findPage_of_freePointerOf hf
    rw [exec_pgGetFp hsafe, exec_pgOccupied hsafe, exec_pgFree hsafe, pageOperand_of_found hpg]
    exact ⟨rfl, rfl, rfl, fun hle =>
      ⟨toNat_ofNat_of_le_pageSize hle, toNat_ofNat_of_le_pageSize (c := s.cfg) (Nat.sub_le _ _)⟩⟩
  · have hfault := pageOperand_of_uncommitted (findPage_of_freePointerOf_none hnone)
    rintro i (rfl | rfl | rfl)
    · rw [exec_pgGetFp hsafe, hfault]
      rfl
    · rw [exec_pgOccupied hsafe, hfault]
      rfl
    · rw [exec_pgFree hsafe, hfault]
      rfl

/-! ## PG_SET_FP -/

/-- A free pointer is no byte of its page (R21). -/
theorem memView_putPage_freePointer {m : Memory} {pid : Nat} {pg : Page} (hpg : findPage m pid = some pg) (c : Config)
    (f : Nat) (x : Word) : memView c (putPage m { pg with freePointer := f }) x = memView c m x := by
  have hid : pg.id = pid := findPage_id hpg
  rw [memView_putPage]
  split
  · rename_i hx
    rw [memView, show pageIdOf c x = pid from hx.trans hid, hpg]
    rfl
  · rfl

/-- The range check comes first (R112, D23). -/
theorem exec_pgSetFp {s : State} (hsafe : s.fatal = none) (p v : Word) :
    exec (.pgSetFp p v) s =
      if s.cfg.pageSize < v.toNat then .next (s.answer (statusOnly .refused))
      else storeThrough s (setFreePointer s p v) okDone := unlessFatal_of_safe hsafe _

/-- Settles O26: past the range check the page is put back under its id with the pointer replaced, or its lookup
faults. -/
theorem pgSetFpSetsOnlyThatPointer : Obligations.PgSetFpSetsOnlyThatPointer := by
  unfold Obligations.PgSetFpSetsOnlyThatPointer
  refine fun s p v hsafe => ⟨fun hv => ?_, fun hv hcommitted => ?_, fun hv huncommitted => ?_⟩
  · rw [exec_pgSetFp hsafe, if_pos hv]
    rfl
  · obtain ⟨pg, hpg⟩ := findPage_of_isCommitted hcommitted
    refine ⟨putPage s.pages { pg with freePointer := v.toNat }, ?_, memView_putPage_freePointer hpg s.cfg v.toNat,
      fun q => ?_⟩
    · rw [exec_pgSetFp hsafe, if_neg hv.not_gt, setFreePointer, pageOperand_of_found hpg]
      rfl
    · rw [freePointerOf_eq, freePointerIn_putPage, findPage_id hpg]
      rfl
  · rw [exec_pgSetFp hsafe, if_neg hv.not_gt, setFreePointer,
      pageOperand_of_uncommitted (findPage_of_not_isCommitted huncommitted)]
    rfl

/-! ## BS_GET_ADDRESS -/

/-- A WRITE lookup of a page that is not committed commits a fresh one where it fits under the ceiling (R53, D2). -/
theorem lookupPage_write_of_uncommitted {c : Config} {m : Memory} {pid : Nat} (off : Nat) (h : findPage m pid = none) :
    lookupPage c m pid off .write =
      if c.capacity < (m.length + 1) * c.pageSize then .error ⟨.capacityExhausted, joinAddr c pid off, .write⟩
      else .ok (Page.fresh pid, putPage m (Page.fresh pid)) := by
  simp only [lookupPage, h, capacityExceeded, decide_eq_true_eq, lookupFault]

theorem memView_putPage_fresh (c : Config) (m : Memory) (pid : Nat) (x : Word) :
    memView c (putPage m (Page.fresh pid)) x = if pageIdOf c x = pid then some 0 else memView c m x := by
  rw [memView_putPage, Page.fresh_id, Page.fresh_byte]

theorem exec_bsGetAddress {s : State} (hsafe : s.fatal = none) (p o : Word) (f : Bool) :
    exec (.bsGetAddress p o f) s =
      if s.cfg.pageSize ≤ o.toNat then .next (s.answer (statusOnly .refused))
      else storeThrough s (resolveAddress s p o f)
        (okResult (joinAddr s.cfg (pageIdOperand s.cfg p) o.toNat)) := unlessFatal_of_safe hsafe _

/-- Settles O27: past the range check of the offset the command is its lookup, by its intent. -/
theorem bsGetAddressResolvesAllocatesOrFaults : Obligations.BsGetAddressResolvesAllocatesOrFaults := by
  unfold Obligations.BsGetAddressResolvesAllocatesOrFaults
  intro s p o f hsafe
  rw [exec_bsGetAddress hsafe]
  refine ⟨fun ho => ?_, fun ho => ?_⟩
  · rw [if_pos ho]
    rfl
  rw [if_neg ho.not_ge, resolveAddress]
  refine ⟨fun hcommitted => ?_, ?_, ?_, ?_⟩
  · obtain ⟨pg, hpg⟩ := findPage_of_isCommitted hcommitted
    rw [lookupPage_of_found hpg]
    rfl
  · rintro huncommitted rfl
    rw [intentOfFlag, if_neg Bool.false_ne_true,
      lookupPage_read_of_uncommitted _ (findPage_of_not_isCommitted huncommitted)]
    rfl
  · rintro huncommitted rfl hfull
    rw [intentOfFlag, if_pos rfl, lookupPage_write_of_uncommitted _ (findPage_of_not_isCommitted huncommitted),
      if_pos hfull]
    rfl
  · rintro huncommitted rfl hfits
    have hnone := findPage_of_not_isCommitted huncommitted
    refine ⟨putPage s.pages (Page.fresh (pageIdOperand s.cfg p)), ?_, length_putPage_absent hnone,
      memView_putPage_fresh s.cfg s.pages _, freePointerIn_putPage s.pages _⟩
    rw [intentOfFlag, if_pos rfl, lookupPage_write_of_uncommitted _ hnone, if_neg hfits.not_gt]
    rfl

/-! ## BS_GET_PAGE -/

theorem exec_bsGetPage {s : State} (hsafe : s.fatal = none) (p : Word) :
    exec (.bsGetPage p) s =
      answerFrom s (lookupPage s.cfg s.pages (pageIdOperand s.cfg p) 0 .read) fun _ =>
        okResult (BitVec.ofNat 64 (pageIdOperand s.cfg p)) := unlessFatal_of_safe hsafe _

/-- Settles O28: a READ lookup finds the page or faults, and commits nothing. -/
theorem bsGetPageAnswersOrFaults : Obligations.BsGetPageAnswersOrFaults := by
  unfold Obligations.BsGetPageAnswersOrFaults
  intro s p hsafe
  rw [exec_bsGetPage hsafe]
  refine ⟨fun hcommitted => ?_, fun huncommitted => ?_⟩
  · obtain ⟨pg, hpg⟩ := findPage_of_isCommitted hcommitted
    rw [lookupPage_of_found hpg]
    rfl
  · rw [lookupPage_read_of_uncommitted 0 (findPage_of_not_isCommitted huncommitted)]
    rfl

end Sys2Proof.Proofs
end

section
/-! Loads of 1, 2, 4 and 8 bytes and of a sequence: what they answer, and the first uncommitted byte they fault at. -/

namespace Sys2Proof.Proofs

open Sys2Proof.Machine Sys2Proof.Statements

theorem byteAt_of_not_committed {s : State} {a : Word} (h : ¬ Committed s a) : s.byteAt a = none :=
  Option.not_isSome_iff_eq_none.1 h

/-! ## N bytes -/

theorem loadWidth_of_uncommitted {s : State} {w : Width} {a : Word} {j : Nat} (hj : j < Width.bytes w)
    (hcommitted : ∀ i < j, Committed s (addrAdd a i)) (huncommitted : ¬ Committed s (addrAdd a j)) :
    loadWidth s.cfg s.pages w a = .error ⟨.pageFault, addrAdd a j, .read⟩ := by
  rw [loadWidth_eq_loadBytes, loadBytes_of_uncommitted hj hcommitted (byteAt_of_not_committed huncommitted)]
  rfl

/-- Settles O12: a load reads one byte after the other, and the first that is not committed faults. -/
theorem loadFaultsAtFirstUncommittedByte : Obligations.LoadFaultsAtFirstUncommittedByte := by
  unfold Obligations.LoadFaultsAtFirstUncommittedByte
  intro s w a j hsafe hj hcommitted huncommitted
  rw [exec_loadInstr hsafe, loadWidth_of_uncommitted hj hcommitted huncommitted]
  rfl

/-! ## LOAD_BYTE -/

theorem decode_loadByte {r : Request} (h : r.op = 0x01) : decode r = .ok (.loadByte r.a) := by
  rw [decode, h]
  rfl

theorem exec_loadByte {s : State} (hsafe : s.fatal = none) (a : Word) :
    exec (.loadByte a) s = answerFrom s (loadByte s.cfg s.pages a) fun b => okResult (loadResult b.toNat) :=
  unlessFatal_of_safe hsafe _

theorem exec_loadByte_of_byteAt {s : State} {a : Word} {b : Byte} (hsafe : s.fatal = none) (hb : s.byteAt a = some b) :
    exec (.loadByte a) s = .next (answered s { st := .ok, r := some (b.setWidth 64) }) := by
  rw [exec_loadByte hsafe, loadByte_of_view hb]
  simp only [answerFrom, okResult, loadResult, BitVec.ofNat_toNat]
  rfl

/-- A page that BS_GET_ADDRESS has just committed reads 0 (R23, R121): by O27, since the command did not fault. -/
theorem byteAt_of_bsGetAddress {s t : State} {p o a : Word} (hsafe : s.fatal = none)
    (huncommitted : isCommitted s.pages (pageIdOperand s.cfg p) = false) (ha : pageIdOf s.cfg a = pageIdOperand s.cfg p)
    (hexec : exec (.bsGetAddress p o true) s = .next t) (ht : t.fatal = none) (ho : o.toNat < s.cfg.pageSize) :
    t.byteAt a = some 0 := by
  obtain ⟨-, -, hfull, hfits⟩ := (bsGetAddressResolvesAllocatesOrFaults s p o true hsafe).2 ho
  by_cases hroom : s.cfg.capacity < (s.pages.length + 1) * s.cfg.pageSize
  · cases hexec.symm.trans (hfull huncommitted rfl hroom)
    cases ht
  · obtain ⟨m, hm, -, hview, -⟩ := hfits huncommitted rfl (Nat.not_lt.1 hroom)
    cases hexec.symm.trans hm
    exact (hview a).trans (if_pos ha)

/-- Settles O10: the byte in memory is the answer, 0 in a fresh page, and without one the lookup faults. -/
theorem loadByteAnswersOrFaults : Obligations.LoadByteAnswersOrFaults := by
  unfold Obligations.LoadByteAnswersOrFaults
  refine ⟨fun r => decode_loadByte, fun s a hsafe => ⟨fun b => exec_loadByte_of_byteAt hsafe, fun hnone => ?_, ?_⟩⟩
  · rw [exec_loadByte hsafe, loadByte_of_uncommitted hnone]
    rfl
  · intro p o t huncommitted ha hexec ht ho
    exact exec_loadByte_of_byteAt ht (byteAt_of_bsGetAddress hsafe huncommitted ha hexec ht ho)

/-! ## LOAD_SEQ -/

theorem decode_loadSeq {r : Request} (h : r.op = 0x09) : decode r = .ok (.loadSeq r.a r.l) := by
  rw [decode, h]
  rfl

theorem exec_loadSeq {s : State} (hsafe : s.fatal = none) (a l : Word) :
    exec (.loadSeq a l) s = answerFrom s (loadBytes s.cfg s.pages a l.toNat) okSeq := unlessFatal_of_safe hsafe _

theorem exec_loadSeq_of_bytes {s : State} {a l : Word} {f : Nat → Byte} (hsafe : s.fatal = none)
    (hbytes : ∀ i < l.toNat, s.byteAt (addrAdd a i) = some (f i)) :
    exec (.loadSeq a l) s = .next (answered s { st := .ok, q := some ((List.range l.toNat).map f) }) := by
  rw [exec_loadSeq hsafe, loadBytes_of_view hbytes]
  rfl

/-- Settles O13: the byte loads of the range answer their list, the empty one where there is none, or the first that is
not committed faults. -/
theorem loadSeqAnswersOrFaults : Obligations.LoadSeqAnswersOrFaults := by
  unfold Obligations.LoadSeqAnswersOrFaults
  refine ⟨fun r => decode_loadSeq, fun s a l hsafe => ⟨fun f => exec_loadSeq_of_bytes hsafe, ?_, ?_⟩⟩
  · intro j hj hcommitted huncommitted
    rw [exec_loadSeq hsafe, loadBytes_of_uncommitted hj hcommitted (byteAt_of_not_committed huncommitted)]
    rfl
  · rintro rfl
    exact exec_loadSeq_of_bytes (f := fun _ => 0) hsafe fun i hi => absurd hi (Nat.not_lt_zero i)

end Sys2Proof.Proofs
end

section
/-! Stores of 1, 2, 4 and 8 bytes: the first byte with no room, and the load or the fetch that sees the value. -/

namespace Sys2Proof.Proofs

open Sys2Proof.Machine Sys2Proof.Statements

/-- Settles O15: the store is that of its bytes, ascending, whose first one without room faults. -/
theorem storeFaultsAtFirstByteWithNoRoom : Obligations.StoreFaultsAtFirstByteWithNoRoom := by
  unfold Obligations.StoreFaultsAtFirstByteWithNoRoom
  intro s w a d j hinv hsafe hj hroom hnoRoom
  obtain ⟨hwf, -⟩ := hinv
  rw [exec_storeInstr hsafe, storeWidth_eq_storeBytes_toNat,
    storeBytes_of_no_room hwf (by rwa [leBytes_length]) hroom hnoRoom]
  rfl

/-! ## Round trips -/

/-- A command that stores and does not fault leaves the pages of its store, and answers. -/
theorem storeThrough_next_safe {s t : State} {r : Except FatalRecord Memory} {resp : Response}
    (h : storeThrough s r resp = .next t) (ht : t.fatal = none) :
    ∃ m, r = .ok m ∧ t = (s.withPages m).answer resp := by
  obtain hok | ⟨f, -, rfl⟩ := storeThrough_next h
  · exact hok
  · simp at ht

/-- A store that completes has put byte `i` of its operand at address `a + i`, at every width (R56). -/
theorem byteAt_of_exec_storeInstr {s t : State} {w : Width} {a d : Word} (hsafe : s.fatal = none)
    (hexec : exec (storeInstr w a d) s = .next t) (ht : t.fatal = none) :
    ∀ i < Width.bytes w, t.byteAt (addrAdd a i) = some (byteOf d i) := by
  intro i hi
  rw [exec_storeInstr hsafe] at hexec
  obtain ⟨m, hm, rfl⟩ := storeThrough_next_safe hexec ht
  have hoffset : (addrAdd a i - a).toNat = i := sub_toNat_addrAdd (by have := width_bytes_le w; omega)
  have hbyte := memView_storeWidth hm (addrAdd a i)
  rw [hoffset, if_pos hi] at hbyte
  exact hbyte

theorem byteSum_byteOf (d : Word) (n : Nat) : byteSum (byteOf d) n = d.toNat % 2 ^ (8 * n) := by
  rw [← leValue_map_range, ← leBytes_eq_map_byteOf, leValue_leBytes, Nat.pow_mul]

/-- Settles O17: the load is the sum of the bytes that the store has put in memory. -/
theorem storeThenLoadReturnsTheValue : Obligations.StoreThenLoadReturnsTheValue := by
  unfold Obligations.StoreThenLoadReturnsTheValue
  intro s t w a d hsafe hexec ht
  rw [← byteSum_byteOf]
  exact loadOfCommittedBytesCompletes t w a (byteOf d) ht (byteAt_of_exec_storeInstr hsafe hexec ht)

theorem pc_of_exec_storeInstr {s t : State} {w : Width} {a d : Word} (hsafe : s.fatal = none)
    (hexec : exec (storeInstr w a d) s = .next t) : t.pc = s.pc := by
  rw [exec_storeInstr hsafe] at hexec
  obtain ⟨m, -, rfl⟩ | ⟨f, -, rfl⟩ := storeThrough_next hexec <;> rfl

/-- Settles O18: the fetch is the sum of the 4 bytes that the store has put at `pc`. -/
theorem fetchSeesTheStore : Obligations.FetchSeesTheStore := by
  unfold Obligations.FetchSeesTheStore
  intro s t v hsafe hexec ht
  have hpc : t.pc = s.pc := pc_of_exec_storeInstr (w := .four) hsafe hexec
  have hbytes := byteAt_of_exec_storeInstr (w := .four) hsafe hexec ht
  rw [← hpc] at hbytes
  rw [fetchWord_of_bytes hbytes, byteSum_byteOf]
  congr 1
  apply BitVec.eq_of_toNat_eq
  simp

end Sys2Proof.Proofs
end

section
/-! Byte sequences: the first byte with no room, the free pointers after a store that completes, and the round trip. -/

namespace Sys2Proof.Proofs

open Sys2Proof.Machine Sys2Proof.Statements

/-- Settles O20: the sequence store faults where its byte stores do, before any occupancy update. -/
theorem storeSeqFaultsAtFirstByteWithNoRoom : Obligations.StoreSeqFaultsAtFirstByteWithNoRoom := by
  unfold Obligations.StoreSeqFaultsAtFirstByteWithNoRoom
  intro s a l b j hinv hsafe hlen hj hroom hnoRoom
  obtain ⟨hwf, -⟩ := hinv
  rw [exec_storeSeq hsafe a hlen,
    storeSequence_error.2 (storeBytes_of_no_room hwf (by rwa [hlen]) hroom hnoRoom)]
  rfl

/-- A STORE_SEQ that completes changes the pages alone, as the sequence store leaves them, and answers OK. -/
theorem storeSequence_of_exec_storeSeq {s t : State} {a l : Word} {b : List Byte} (hsafe : s.fatal = none)
    (hlen : b.length = l.toNat) (hexec : exec (.storeSeq a l b) s = .next t) (ht : t.fatal = none) :
    ∃ m, storeSequence s.cfg s.pages a b = .ok m ∧ t = (s.withPages m).answer okDone := by
  rw [exec_storeSeq hsafe a hlen] at hexec
  exact storeThrough_next_safe hexec ht

/-- Settles O21: the free pointers are those of the sequence store, whose occupancy update ends at its last byte. -/
theorem storeSeqRaisesFreePointersToItsEnd : Obligations.StoreSeqRaisesFreePointersToItsEnd := by
  unfold Obligations.StoreSeqRaisesFreePointersToItsEnd
  intro s t a l b hinv hsafe hlen hexec ht p
  obtain ⟨hwf, -⟩ := hinv
  obtain ⟨m, hm, rfl⟩ := storeSequence_of_exec_storeSeq hsafe hlen hexec ht
  rw [← hlen, freePointerOf_eq, freePointerOf_eq]
  exact freePointerIn_storeSequence hwf hm p

/-- Settles O22: each address of the range reads as its byte of the sequence, and the load answers their list. -/
theorem storeSeqThenLoadSeqReturnsIt : Obligations.StoreSeqThenLoadSeqReturnsIt := by
  unfold Obligations.StoreSeqThenLoadSeqReturnsIt
  intro s t a l b hsafe hlen hexec ht
  obtain ⟨m, hm, rfl⟩ := storeSequence_of_exec_storeSeq hsafe hlen hexec ht
  have hle : b.length ≤ 2 ^ 64 := hlen ▸ l.isLt.le
  obtain ⟨-, -, hview⟩ := storeSequence_spec hle hm
  have hbytes : ∀ i < l.toNat, memView s.cfg m (addrAdd a i) = some (b.getD i 0) := by
    intro i hi
    rw [← hlen] at hi
    rw [hview, sub_toNat_addrAdd (by omega), if_pos hi, List.getD_eq_getElem _ _ hi, List.getElem?_eq_getElem hi]
  have hlist : (List.range l.toNat).map (b.getD · 0) = b := by
    rw [← hlen]
    exact List.ext_getElem (by simp) fun i _ hi => by simp [hi]
  rw [exec_loadSeq_of_bytes ht hbytes, hlist]

end Sys2Proof.Proofs
end

section
/-! The checks of the loader read byte by byte, and the free pointers after a load that completes. -/

namespace Sys2Proof.Proofs

open Sys2Proof.Machine Sys2Proof.Statements

/-! ## The checks -/

/-- The first 4 bytes of an image that has them, against the magic number (R185). -/
theorem take_four_ne_iff {img : List Byte} (hlen : 4 ≤ img.length) (b₀ b₁ b₂ b₃ : Byte) :
    img.take 4 ≠ [b₀, b₁, b₂, b₃] ↔
      img.getD 0 0 ≠ b₀ ∨ img.getD 1 0 ≠ b₁ ∨ img.getD 2 0 ≠ b₂ ∨ img.getD 3 0 ≠ b₃ := by
  match img, hlen with
  | x₀ :: x₁ :: x₂ :: x₃ :: t, _ =>
    simp only [List.take_succ_cons, List.take_zero, List.getD_cons_zero, List.getD_cons_succ, ne_eq, List.cons.injEq,
      and_true, not_and_or]

theorem imageField_one_ne_iff (img : List Byte) (o : Nat) (b : Byte) :
    imageField img o 1 ≠ b.toNat ↔ img.getD o 0 ≠ b := by
  simp [imageField, byteSum, BitVec.toNat_eq]

theorem phdrTableMalformed_iff (img : List Byte) :
    phdrTableMalformed img = true ↔
      0 < imageField img 0x38 2 ∧
        (imageField img 0x36 2 ≠ 56 ∨ img.length < imageField img 0x20 8 + imageField img 0x38 2 * 56) := by
  simp only [phdrTableMalformed, elfPhnum, elfPhentsize, elfPhoff, elfField_eq_imageField, Bool.and_eq_true,
    Bool.or_eq_true, decide_eq_true_eq]

theorem any_segmentOutOfRange (img : List Byte) :
    (programHeaders img).any (segmentOutOfRange img) =
      (selectedSegments img).any fun k => decide (img.length < segmentOffset img k + segmentFilesz img k) := by
  simp only [programHeaders_eq_map, List.any_map, selectedSegments, List.any_filter, Function.comp_def,
    segmentOutOfRange_imageHeader]

/-- Settles O39: the two lists of checks agree one by one; the magic number is read where the header is whole. -/
theorem loaderChecksInOrder : Obligations.LoaderChecksInOrder := by
  unfold Obligations.LoaderChecksInOrder
  intro img
  rw [checkImage, firstFailedCheck]
  by_cases hlen : img.length < 64
  · rw [if_pos hlen, if_pos hlen]
  · have hmagic : img.take 4 ≠ [0x7F#8, 0x45#8, 0x4C#8, 0x46#8] ↔
        img.getD 0 0 ≠ 0x7F ∨ img.getD 1 0 ≠ 0x45 ∨ img.getD 2 0 ≠ 0x4C ∨ img.getD 3 0 ≠ 0x46 :=
      take_four_ne_iff (by omega) _ _ _ _
    have hclass : imageField img 0x04 1 ≠ 2 ↔ img.getD 4 0 ≠ 2 := imageField_one_ne_iff img 4 2
    have hdata : imageField img 0x05 1 ≠ 1 ↔ img.getD 5 0 ≠ 1 := imageField_one_ne_iff img 5 1
    simp only [if_neg hlen, hmagic, elfField_eq_imageField, hclass, hdata, phdrTableMalformed_iff,
      any_segmentOutOfRange]

/-! ## Free pointers -/

/-- Settles O42: the free pointers are those of the segments' sequence stores, one after the other. -/
theorem loadElfRaisesFreePointers : Obligations.LoadElfRaisesFreePointers := by
  unfold Obligations.LoadElfRaisesFreePointers
  intro s t img hinv hsafe hcheck hexec ht p
  obtain ⟨hwf, hceiling, -⟩ := hinv
  rw [exec_loadElf_image hsafe hcheck] at hexec
  obtain ⟨m, hload, rfl⟩ := storeThrough_next_safe hexec ht
  rw [← flatMap_addresses_programHeaders hcheck, freePointerOf_eq, freePointerOf_eq]
  exact freePointerIn_loadSegments hwf hceiling hload p

end Sys2Proof.Proofs
end

section
/-! The next unoccupied address, and the bump allocator that stores at it. -/

namespace Sys2Proof.Proofs

open Sys2Proof.Machine Sys2Proof.Statements

/-! ## Both commands -/

theorem exec_bsNextUnocc {s : State} (hsafe : s.fatal = none) :
    exec .bsNextUnocc s = answerFrom s (nextUnoccupied s.cfg s.pages) okResult := unlessFatal_of_safe hsafe _

theorem exec_nextBlock {s : State} (hsafe : s.fatal = none) :
    exec .nextBlock s = answerFrom s (nextUnoccupied s.cfg s.pages) okResult := unlessFatal_of_safe hsafe _

/-! ## The search, case by case -/

theorem nextUnoccupied_nil (c : Config) : nextUnoccupied c [] = .ok 0 := by
  simp [nextUnoccupied, firstRoom, joinAddr]

/-- The first committed page with room gives its free pointer (R126): the search stops neither below it nor above. -/
theorem nextUnoccupied_of_room {c : Config} {m : Memory} {p f : Nat} (w : Memory.wf c m = true)
    (hp : freePointerIn m p = some f) (hf : f < c.pageSize)
    (hbelow : ∀ q g, q < p → freePointerIn m q = some g → g = c.pageSize) :
    nextUnoccupied c m = .ok (joinAddr c p f) := by
  cases hroom : firstRoom c m with
  | none => exact absurd (firstRoom_none w hroom p f hp) hf.ne
  | some pg =>
    obtain ⟨hpg, hlt, hfull⟩ := firstRoom_some w hroom
    have hfp : freePointerIn m pg.id = some pg.freePointer := by rw [freePointerIn, hpg]
    rcases Nat.lt_trichotomy pg.id p with h | rfl | h
    · exact absurd (hbelow _ _ h hfp) hlt.ne
    · obtain rfl : pg.freePointer = f := Option.some.inj (hfp.symm.trans hp)
      simp only [nextUnoccupied, hroom]
    · exact absurd (hfull _ _ h hp) hf.ne

theorem firstRoom_eq_none_of_full {c : Config} {m : Memory} (w : Memory.wf c m = true)
    (hfull : ∀ q g, freePointerIn m q = some g → g = c.pageSize) : firstRoom c m = none := by
  cases hroom : firstRoom c m with
  | none => rfl
  | some pg =>
    obtain ⟨hpg, hlt, -⟩ := firstRoom_some w hroom
    exact absurd (hfull pg.id _ (by rw [freePointerIn, hpg])) hlt.ne

theorem exists_freePointerIn {m : Memory} {p : Nat} (h : isCommitted m p = true) : ∃ f, freePointerIn m p = some f :=
  Option.isSome_iff_exists.1 (by rw [freePointerIn_isSome, h])

theorem maxPageId_eq {m : Memory} {p : Nat} (hne : m ≠ []) (hp : isCommitted m p = true)
    (hle : ∀ q, isCommitted m q = true → q ≤ p) : maxPageId m = p := by
  obtain ⟨hmax, hge⟩ := maxPageId_spec hne
  exact Nat.le_antisymm (hle _ hmax) (hge p hp)

/-- With every committed page full the page above the greatest one follows, if there is such a page (R126, D8). -/
theorem nextUnoccupied_of_full {c : Config} {m : Memory} {p : Nat} (w : Memory.wf c m = true)
    (hp : isCommitted m p = true) (hfull : ∀ q g, freePointerIn m q = some g → q ≤ p ∧ g = c.pageSize) :
    nextUnoccupied c m =
      if p + 1 = c.pageCount then .error ⟨.capacityExhausted, 0xFFFFFFFFFFFFFFFF, .write⟩
      else .ok (joinAddr c (p + 1) 0) := by
  have hne : m ≠ [] := by rintro rfl; cases hp
  have hmax : maxPageId m = p := maxPageId_eq hne hp fun q hq => by
    obtain ⟨g, hg⟩ := exists_freePointerIn hq
    exact (hfull q g hg).1
  have htop : p = c.pageCount - 1 ↔ p + 1 = c.pageCount := by have := pageCount_pos c; omega
  obtain ⟨q, t, rfl⟩ := List.exists_cons_of_ne_nil hne
  simp only [nextUnoccupied, firstRoom_eq_none_of_full w fun q g hg => (hfull q g hg).2, hmax, htop]

/-- Settles O24: the two commands answer from one search, whose three cases are these. -/
theorem nextUnoccupiedAnswers : Obligations.NextUnoccupiedAnswers := by
  unfold Obligations.NextUnoccupiedAnswers
  intro s i hi hinv hsafe
  obtain ⟨hwf, -⟩ := hinv
  have hexec : exec i s = answerFrom s (nextUnoccupied s.cfg s.pages) okResult := by
    rcases hi with rfl | rfl
    · exact exec_bsNextUnocc hsafe
    · exact exec_nextBlock hsafe
  rw [hexec]
  refine ⟨fun p f hp hf hbelow => ?_, fun hnil => ?_, fun p hp hfull => ?_⟩
  · rw [nextUnoccupied_of_room hwf hp hf hbelow]
    rfl
  · rw [hnil, nextUnoccupied_nil]
    rfl
  · rw [nextUnoccupied_of_full hwf hp hfull]
    split <;> rfl

/-! ## The bump allocator -/

theorem toNat_lt_of_pageIdOf_lt {c : Config} {a b : Word} (h : pageIdOf c a < pageIdOf c b) : a.toNat < b.toNat :=
  Nat.lt_of_div_lt_div h

theorem toNat_lt_of_offsetOf_lt {c : Config} {a b : Word} (hpage : pageIdOf c a = pageIdOf c b)
    (h : offsetOf c a < offsetOf c b) : a.toNat < b.toNat := by
  rw [toNat_split c a, toNat_split c b, hpage]
  omega

/-- A range that does not pass the top of the address space lies in no page below that of its first address. -/
theorem pageIdOf_le_of_touches {c : Config} {a : Word} {n p : Nat} (hend : a.toNat + n ≤ 2 ^ 64)
    (h : touches c (addrRange a n) p = true) : pageIdOf c a ≤ p := by
  obtain ⟨x, hx, hp⟩ := List.any_eq_true.1 h
  obtain ⟨i, hi, rfl⟩ := mem_addrRange.1 hx
  have hnat : (addrAdd a i).toNat = a.toNat + i := by
    rw [addrAdd, BitVec.toNat_add, BitVec.toNat_ofNat, Nat.mod_eq_of_lt (a := i) (by omega),
      Nat.mod_eq_of_lt (by omega)]
  rw [← of_decide_eq_true hp, pageIdOf, pageIdOf, hnat]
  exact Nat.div_le_div_right (Nat.le_add_right _ _)

/-- A page full before a sequence store is full after it, so below a store at the next unoccupied address every
committed page stays full, and the store commits none there. -/
theorem full_below_of_storeSequence {c : Config} {m m' : Memory} {a : Word} {bs : List Byte} (w : Memory.wf c m = true)
    (hfull : ∀ q g, q < pageIdOf c a → freePointerIn m q = some g → g = c.pageSize)
    (hend : a.toNat + bs.length ≤ 2 ^ 64) (hstore : storeSequence c m a bs = .ok m') {q g : Nat}
    (hq : q < pageIdOf c a) (hg : freePointerIn m' q = some g) : g = c.pageSize := by
  rw [freePointerIn_storeSequence w hstore] at hg
  cases hold : freePointerIn m q with
  | none =>
    have huntouched : ¬ touches c (addrRange a bs.length) q = true := fun ht =>
      absurd (pageIdOf_le_of_touches hend ht) (Nat.not_le.2 hq)
    simp [hold, huntouched] at hg
  | some f =>
    obtain rfl : highWater c q f (addrRange a bs.length) = g := by simpa [hold] using hg
    obtain rfl := hfull q f hq hold
    exact Nat.le_antisymm (highWater_le (Nat.le_refl _) _) (le_highWater c q _ _)

/-- A sequence store of at least one byte pushes the free pointer of its first page past its first byte (R157). -/
theorem offsetOf_lt_freePointer_of_storeSequence {c : Config} {m m' : Memory} {a : Word} {bs : List Byte}
    (w : Memory.wf c m = true) (hpos : 0 < bs.length) (hstore : storeSequence c m a bs = .ok m') :
    ∃ g, freePointerIn m' (pageIdOf c a) = some g ∧ offsetOf c a < g := by
  have ha : a ∈ addrRange a bs.length := mem_addrRange.2 ⟨0, hpos, (addrAdd_zero a).symm⟩
  have htouch : touches c (addrRange a bs.length) (pageIdOf c a) = true :=
    List.any_eq_true.2 ⟨a, ha, decide_eq_true rfl⟩
  rw [freePointerIn_storeSequence w hstore]
  cases freePointerIn m (pageIdOf c a) with
  | none => exact ⟨_, if_pos htouch, offset_lt_highWater ha rfl⟩
  | some f => exact ⟨_, rfl, offset_lt_highWater ha rfl⟩

/-- After the store the next unoccupied address is not in a page below (all full), and in the same page it is the
greater free pointer (R158). -/
theorem nextUnoccupied_increases {c : Config} {m m' : Memory} {a a' : Word} {bs : List Byte} (hgood : GoodMemory c m)
    (h : nextUnoccupied c m = .ok a) (hpos : 0 < bs.length) (hend : a.toNat + bs.length ≤ 2 ^ 64)
    (hstore : storeSequence c m a bs = .ok m') (h' : nextUnoccupied c m' = .ok a') : a.toNat < a'.toNat := by
  obtain ⟨hwf', -⟩ := (storeSequence_keeps hstore).good hgood
  obtain ⟨hwf, -⟩ := hgood
  obtain ⟨hfull, -⟩ := nextUnoccupied_ok hwf h
  obtain ⟨g, hg, hlt⟩ := offsetOf_lt_freePointer_of_storeSequence hwf hpos hstore
  obtain ⟨-, hsome | ⟨-, -, habove⟩⟩ := nextUnoccupied_ok hwf' h'
  · rcases Nat.lt_trichotomy (pageIdOf c a) (pageIdOf c a') with hp | hp | hp
    · exact toNat_lt_of_pageIdOf_lt hp
    · obtain rfl : g = offsetOf c a' := Option.some.inj (hg.symm.trans (hp ▸ hsome))
      exact toNat_lt_of_offsetOf_lt hp hlt
    · exact absurd (full_below_of_storeSequence hwf hfull hend hstore hp hsome) (offsetOf_lt c a').ne
  · exact toNat_lt_of_pageIdOf_lt (habove _ g hg)

theorem nextUnoccupied_of_exec_nextBlock {s t : State} (hsafe : s.fatal = none) (hexec : exec .nextBlock s = .next t)
    (ht : t.fatal = none) :
    ∃ a, nextUnoccupied s.cfg s.pages = .ok a ∧ t = s.answer (okResult a) := by
  rw [exec_nextBlock hsafe] at hexec
  obtain hok | ⟨f, -, rfl⟩ := answerFrom_next hexec
  · exact hok
  · simp at ht

/-- Settles O23: the two answers are the next unoccupied addresses before and after the store. -/
theorem nextBlockAnswersIncrease : Obligations.NextBlockAnswersIncrease := by
  unfold Obligations.NextBlockAnswersIncrease
  intro s s₁ s₂ s₃ a l b hinv hsafe hfirst hanswer hlen hpos hend hstore hsafe₂ hsecond hsafe₃
  obtain ⟨hwf, hceiling, -⟩ := hinv
  rw [exec_nextBlock hsafe] at hfirst
  obtain ⟨v, hv, rfl⟩ | ⟨f, -, rfl⟩ := answerFrom_next hfirst
  · obtain rfl : v = a := by simpa [okResult] using hanswer
    obtain ⟨m, hm, rfl⟩ := storeSequence_of_exec_storeSeq hsafe hlen hstore hsafe₂
    obtain ⟨a', ha', rfl⟩ := nextUnoccupied_of_exec_nextBlock hsafe₂ hsecond hsafe₃
    rw [← hlen] at hpos hend
    exact ⟨a', rfl, nextUnoccupied_increases ⟨hwf, hceiling⟩ hv hpos hend hm ha'⟩
  · simp [fatalResponse] at hanswer

end Sys2Proof.Proofs
end

section
/-! RUN_STEP by its cycle, the fetch that faults, and the kernel's memory accesses beside the commands. -/

namespace Sys2Proof.Proofs

open Sys2Proof.Machine Sys2Proof.Statements

/-! ## RUN_STEP -/

theorem exec_runStep {s : State} (hsafe : s.fatal = none) : exec .runStep s = runStepWith Config.kernel s :=
  unlessFatal_of_safe hsafe _

/-- A step whose fetch succeeds ends as the kernel's execution of the word does (R215, R216, R249). -/
theorem runStepWith_of_fetch {K : Kernel} {s : State} {w : BitVec 32} (hpc : s.pc ≠ 0) (hfetch : fetchWord s = .ok w) :
    runStepWith K s =
      .next (afterCycle K s w (·.answer (statusOnly .stepped)) fun k t => t.answer (kernelFaultResponse k)) := by
  rw [runStepWith, if_neg hpc]
  obtain ⟨t, hcycle, hafter⟩ | ⟨k, t, hcycle, hafter⟩ | ⟨f, hcycle, hafter⟩ := cycle_afterCycle_cases K hfetch
  · rw [hcycle, hafter]
  · rw [hcycle, hafter]
  · rw [hcycle, hafter]

/-- Settles O32: the step is the cycle of the word at `pc`, with any kernel and so with the block's own. -/
theorem runStepPerformsOneCycle : Obligations.RunStepPerformsOneCycle := by
  unfold Obligations.RunStepPerformsOneCycle
  intro s f hsafe hpc hbytes
  have hstep := fun K => runStepWith_of_fetch (K := K) hpc (fetchWord_of_bytes hbytes)
  exact ⟨(exec_runStep hsafe).trans (hstep Config.kernel), hstep⟩

/-! ## The fetch that faults -/

theorem fetchWord_of_uncommitted {s : State} {j : Nat} (hj : j < 4) (hcommitted : ∀ i < j, Committed s (addrAdd s.pc i))
    (huncommitted : ¬ Committed s (addrAdd s.pc j)) :
    fetchWord s = .error ⟨.pageFault, addrAdd s.pc j, .read⟩ := by
  rw [fetchWord, loadWidth_of_uncommitted (w := .four) hj hcommitted huncommitted]

theorem cycle_of_fetch_error {s : State} {f : FatalRecord} (h : fetchWord s = .error f) (K : Kernel) :
    cycle K s = .fatal f := by
  rw [cycle, h]

/-- Settles O33: a step and a pass of a run take the fatal fault of their cycle, here that of its fetch. -/
theorem fetchFaultsAtFirstUncommittedByte : Obligations.FetchFaultsAtFirstUncommittedByte := by
  unfold Obligations.FetchFaultsAtFirstUncommittedByte
  intro s j hsafe hpc hj hcommitted huncommitted
  have hcycle := cycle_of_fetch_error (fetchWord_of_uncommitted hj hcommitted huncommitted) Config.kernel
  refine ⟨?_, fun hrun => ?_⟩
  · rw [exec_runStep hsafe, runStepWith, if_neg hpc, hcycle]
    rfl
  · obtain ⟨run, hrun⟩ := Option.isSome_iff_exists.1 hrun
    rw [step_of_run hrun, continueRun, unlessFatal_of_safe hsafe, if_neg hpc, hcycle]
    rfl

/-! ## The kernel's accesses -/

theorem runKernelProg_load (c : Config) (m : Memory) (w : Width) (a : Word) (k : Word → KernelProg) :
    runKernelProg c m (.load w a k) = loadWidth c m w a >>= fun v => runKernelProg c m (k (loadResult v)) := by
  rw [runKernelProg]
  cases loadWidth c m w a <;> rfl

theorem runKernelProg_store (c : Config) (m : Memory) (w : Width) (a d : Word) (k : KernelProg) :
    runKernelProg c m (.store w a d k) = storeWidth c m w a d >>= fun m' => runKernelProg c m' k := by
  rw [runKernelProg]
  cases storeWidth c m w a d <;> rfl

theorem runKernelProg_loadSeq (c : Config) (m : Memory) (a l : Word) (k : List Byte → KernelProg) :
    runKernelProg c m (.loadSeq a l k) = loadBytes c m a l.toNat >>= fun q => runKernelProg c m (k q) := by
  rw [runKernelProg]
  cases loadBytes c m a l.toNat <;> rfl

theorem runKernelProg_storeSeq (c : Config) (m : Memory) (a : Word) (b : List Byte) (k : KernelProg) :
    runKernelProg c m (.storeSeq a b k) = storeSequence c m a b >>= fun m' => runKernelProg c m' k := by
  rw [runKernelProg]
  cases storeSequence c m a b <;> rfl

/-- What follows a store goes on in the memory that the command with the same store leaves, or ends with its record. -/
theorem bind_of_storeThrough {α : Type} {s t : State} {r : Except FatalRecord Memory} {resp : Response}
    (hsafe : s.fatal = none) (h : storeThrough s r resp = .next t) (k : Memory → Except FatalRecord α) :
    (r >>= k) = match t.fatal with
      | some f => .error f
      | none => k t.pages := by
  obtain ⟨m, rfl, rfl⟩ | ⟨f, rfl, rfl⟩ := storeThrough_next h
  · rw [State.answer_fatal, State.withPages_fatal, hsafe]
    rfl
  · rfl

/-- What follows a load goes on from the value that the command with the same load answers, or ends with its record. -/
theorem bind_of_answerFrom {α β γ : Type} {s t : State} {r : Except FatalRecord α} {g : α → β} {resp : β → Response}
    (hinj : Function.Injective resp) (hok : ∀ v, (resp v).st = .ok) (hsafe : s.fatal = none)
    (h : answerFrom s r (fun v => resp (g v)) = .next t) (k : β → Except FatalRecord γ) :
    (∀ f, t.fatal = some f → (r >>= fun v => k (g v)) = .error f) ∧
      ∀ v, t.response = some (resp v) → (r >>= fun v => k (g v)) = k v := by
  obtain ⟨u, rfl, rfl⟩ | ⟨f, rfl, rfl⟩ := answerFrom_next h
  · refine ⟨fun f hf => ?_, fun v hv => ?_⟩
    · simp [hsafe] at hf
    · obtain rfl : g u = v := hinj (Option.some.inj hv)
      rfl
  · refine ⟨fun f' hf => ?_, fun v hv => ?_⟩
    · obtain rfl : f = f' := Option.some.inj hf
      rfl
    · have hst : Status.fatal = (resp v).st := congrArg Response.st (Option.some.inj hv)
      cases hst.trans (hok v)

theorem okResult_injective : Function.Injective okResult := fun _ _ h =>
  Option.some.inj (congrArg Response.r h)

theorem okSeq_injective : Function.Injective okSeq := fun _ _ h => Option.some.inj (congrArg Response.q h)

/-- Settles O34: an access of the kernel and the command with the same operands are one operation on memory. -/
theorem kernelAccessesFollowTheCommands : Obligations.KernelAccessesFollowTheCommands := by
  unfold Obligations.KernelAccessesFollowTheCommands
  refine fun s t hsafe => ⟨fun w a d k hexec => ?_, fun a l b k hlen hexec => ?_, fun w a k hexec => ?_,
    fun a l k hexec => ?_⟩
  · rw [exec_storeInstr hsafe] at hexec
    rw [runKernelProg_store]
    exact bind_of_storeThrough hsafe hexec _
  · rw [exec_storeSeq hsafe a hlen] at hexec
    rw [runKernelProg_storeSeq]
    exact bind_of_storeThrough hsafe hexec _
  · rw [exec_loadInstr hsafe] at hexec
    rw [runKernelProg_load]
    exact bind_of_answerFrom okResult_injective (fun _ => rfl) hsafe hexec fun v => runKernelProg s.cfg s.pages (k v)
  · rw [exec_loadSeq hsafe] at hexec
    rw [runKernelProg_loadSeq]
    exact bind_of_answerFrom okSeq_injective (fun _ => rfl) hsafe hexec fun q => runKernelProg s.cfg s.pages (k q)

end Sys2Proof.Proofs
end
